-- ==== Sys2Proof/Word.lean ====
section
/-! DEFINITION. The words of the block: bytes, the 5-bit select word, and one value at each supported width. -/

namespace Sys2Proof

/-- A byte: continuation bit in bit 7, data bits in bits 6 to 0 (R60). -/
abbrev Byte := BitVec 8

/-- The operation select word, 5 bits (R22, R77). -/
abbrev SelectWord := BitVec 5

/-- An operand port at each width the block knows. An operation of width W reads the entry that is exactly
W bits wide (R23, R25); DESIGN CHOICE, log 3. -/
structure Lanes where
  w32 : BitVec 32
  w64 : BitVec 64
  w128 : BitVec 128
  deriving DecidableEq, Repr

end Sys2Proof
end

