-- ==== Sys2Proof/Config.lean ====
section
/-! DEFINITION. What an implementation fixes: the open parameter HAS_W128, and the content of memory nothing has written. -/

namespace Sys2Proof

/-- The static parameters of one built block (R6, R31). `LENW` has no entry: capacities, lengths and counts are
unbounded naturals, which R9 allows (log 2). -/
structure Config where
  /-- HAS_W128: whether the six 128-bit operations exist (R6). -/
  hasW128 : Bool
  deriving DecidableEq, Repr

/-- What an address of the requester's memory reads as when no cell lists it. DESIGN CHOICE, log 5. -/
def unlistedByte : Byte := 0x00

end Sys2Proof
end

