-- ==== Sys2Proof/Syntax.lean ====
section
/-! DEFINITION. The 18 operations, one constructor per row of spec/opcode_table.json, and the three properties
(function, orientation, width) that name an operation (R2, R80). Operands are on ports, so no constructor has an argument (R79). -/

namespace Sys2Proof

/-- The supported widths (R6). -/
inductive Width where
  | w32 | w64 | w128
  deriving DecidableEq, Repr

/-- The two orientations (R3): left-grouped and right-grouped. -/
inductive Orient where
  | left | right
  deriving DecidableEq, Repr

/-- The three functions (R2). -/
inductive Func where
  | size | enc | dec
  deriving DecidableEq, Repr

/-- The operations of the block (R2). -/
inductive Instr where
  | sizeL32 | encL32 | decL32
  | sizeR32 | encR32 | decR32
  | sizeL64 | encL64 | decL64
  | sizeR64 | encR64 | decR64
  | sizeL128 | encL128 | decL128
  | sizeR128 | encR128 | decR128
  deriving DecidableEq, Repr

/-- The number of bits of a width. -/
abbrev Width.bits : Width → Nat
  | .w32 => 32
  | .w64 => 64
  | .w128 => 128

/-- The entry of a port at a width. -/
def Lanes.get (l : Lanes) : (w : Width) → BitVec w.bits
  | .w32 => l.w32
  | .w64 => l.w64
  | .w128 => l.w128

end Sys2Proof
end

