-- ==== Sys2Proof/WellFormed.lean ====
section
/-! DEFINITION. When an operation exists: the 128-bit operations exist exactly when HAS_W128 is true (R6). -/

namespace Sys2Proof

/-- Whether an operation exists in a build (R6): widths 32 and 64 always, width 128 exactly with `hasW128`. -/
def Instr.wf (c : Config) : Instr → Bool
  | .sizeL32 | .encL32 | .decL32 | .sizeR32 | .encR32 | .decR32 => true
  | .sizeL64 | .encL64 | .decL64 | .sizeR64 | .encR64 | .decR64 => true
  | .sizeL128 | .encL128 | .decL128 | .sizeR128 | .encR128 | .decR128 => c.hasW128

end Sys2Proof
end

