-- ==== Sys2Proof/Decode.lean ====
section
/-! DEFINITION. The select word: its fields, the decoder, total on all 32 codes and rejecting by name, and the encoder
(R77, opcode_table.json). -/

namespace Sys2Proof

/-- Why a select code names no operation (R77): each is a reserved code. -/
inductive DecodeError where
  /-- `width` = 11 -/
  | reservedWidth
  /-- `func` = 11 -/
  | reservedFunc
  /-- `width` = 10 while HAS_W128 is false -/
  | absentWidth128
  deriving DecidableEq, Repr

/-! ### The fields of an operation -/

/-- The operation with the given function, orientation and width (R80). -/
def Instr.ofFields : Func → Orient → Width → Instr
  | .size, .left, .w32 => .sizeL32
  | .enc, .left, .w32 => .encL32
  | .dec, .left, .w32 => .decL32
  | .size, .right, .w32 => .sizeR32
  | .enc, .right, .w32 => .encR32
  | .dec, .right, .w32 => .decR32
  | .size, .left, .w64 => .sizeL64
  | .enc, .left, .w64 => .encL64
  | .dec, .left, .w64 => .decL64
  | .size, .right, .w64 => .sizeR64
  | .enc, .right, .w64 => .encR64
  | .dec, .right, .w64 => .decR64
  | .size, .left, .w128 => .sizeL128
  | .enc, .left, .w128 => .encL128
  | .dec, .left, .w128 => .decL128
  | .size, .right, .w128 => .sizeR128
  | .enc, .right, .w128 => .encR128
  | .dec, .right, .w128 => .decR128

/-- The function an operation performs. -/
def Instr.func : Instr → Func
  | .sizeL32 | .sizeR32 | .sizeL64 | .sizeR64 | .sizeL128 | .sizeR128 => .size
  | .encL32 | .encR32 | .encL64 | .encR64 | .encL128 | .encR128 => .enc
  | .decL32 | .decR32 | .decL64 | .decR64 | .decL128 | .decR128 => .dec

/-- The orientation of an operation. -/
def Instr.orient : Instr → Orient
  | .sizeL32 | .encL32 | .decL32 | .sizeL64 | .encL64 | .decL64 | .sizeL128 | .encL128 | .decL128 => .left
  | .sizeR32 | .encR32 | .decR32 | .sizeR64 | .encR64 | .decR64 | .sizeR128 | .encR128 | .decR128 => .right

/-- The width of an operation. -/
def Instr.width : Instr → Width
  | .sizeL32 | .encL32 | .decL32 | .sizeR32 | .encR32 | .decR32 => .w32
  | .sizeL64 | .encL64 | .decL64 | .sizeR64 | .encR64 | .decR64 => .w64
  | .sizeL128 | .encL128 | .decL128 | .sizeR128 | .encR128 | .decR128 => .w128

/-! ### Names (R80) -/

/-- The `FUNC` part of a name. -/
def Func.text : Func → String
  | .size => "SIZE"
  | .enc => "ENC"
  | .dec => "DEC"

/-- The `ORIENT` part of a name. -/
def Orient.text : Orient → String
  | .left => "L"
  | .right => "R"

/-- The `WIDTH` part of a name. -/
def Width.text : Width → String
  | .w32 => "32"
  | .w64 => "64"
  | .w128 => "128"

/-- `FUNC.ORIENT.WIDTH` (R80). -/
def Instr.mnemonic (i : Instr) : String :=
  i.func.text ++ "." ++ i.orient.text ++ "." ++ i.width.text

/-! ### Decoding -/

/-- Bits 4:3 of the select word. -/
def widthField (op : SelectWord) : BitVec 2 := op.extractLsb' 3 2

/-- Bit 2 of the select word. -/
def orientField (op : SelectWord) : BitVec 1 := op.extractLsb' 2 1

/-- Bits 1:0 of the select word. -/
def funcField (op : SelectWord) : BitVec 2 := op.extractLsb' 0 2

/-- `width`: 00 = 32, 01 = 64, 10 = 128, 11 reserved (R77). -/
def decodeWidth (f : BitVec 2) : Option Width :=
  match f.toNat with
  | 0 => some .w32
  | 1 => some .w64
  | 2 => some .w128
  | _ => none

/-- `orient`: 0 = L, 1 = R (R77). -/
def decodeOrient (f : BitVec 1) : Orient :=
  match f.toNat with
  | 0 => .left
  | _ => .right

/-- `func`: 00 = SIZE, 01 = ENC, 10 = DEC, 11 reserved (R77). -/
def decodeFunc (f : BitVec 2) : Option Func :=
  match f.toNat with
  | 0 => some .size
  | 1 => some .enc
  | 2 => some .dec
  | _ => none

/-- The operation a select word names in a build, or the reason it names none (R77). Which reason is given
when two hold is the model's choice (log 16); every reason has the same effect (R184). -/
def decode (c : Config) (op : SelectWord) : Except DecodeError Instr :=
  match decodeWidth (widthField op), decodeFunc (funcField op) with
  | none, _ => .error .reservedWidth
  | some _, none => .error .reservedFunc
  | some w, some f =>
    if (Instr.ofFields f (decodeOrient (orientField op)) w).wf c then
      .ok (Instr.ofFields f (decodeOrient (orientField op)) w)
    else .error .absentWidth128

/-- The instruction read from a table word: bits 4:0 are the select word, and a set bit above them belongs to
no select word (log 15). The build is the one with all 18 operations. -/
def decodeTableWord (nbits w : Nat) : Option Instr :=
  if w < 2 ^ nbits ∧ w < 32 then
    match decode (Config.mk true) (BitVec.ofNat 5 w) with
    | .ok i => some i
    | .error _ => none
  else none

/-! ### Encoding -/

/-- The `width` field of a width. -/
def Width.code : Width → BitVec 2
  | .w32 => 0b00#2
  | .w64 => 0b01#2
  | .w128 => 0b10#2

/-- The `orient` field of an orientation. -/
def Orient.code : Orient → BitVec 1
  | .left => 0b0#1
  | .right => 0b1#1

/-- The `func` field of a function. -/
def Func.code : Func → BitVec 2
  | .size => 0b00#2
  | .enc => 0b01#2
  | .dec => 0b10#2

/-- The select word of an operation: `width` in bits 4:3, `orient` in bit 2, `func` in bits 1:0 (R77). -/
def encode (i : Instr) : SelectWord :=
  i.width.code ++ i.orient.code ++ i.func.code

end Sys2Proof
end

