-- ==== Sys2Proof/Machine/State.lean ====
section
/-! DEFINITION. The state of the machine: what the requester owns and presents, what the block drives, and the reset state.
The block itself keeps nothing between operations (R20). -/

namespace Sys2Proof.Machine

/-- The outcome an operation reports (R181). -/
inductive Status where
  /-- none of the conditions below -/
  | ok
  /-- ENC: `cap` is smaller than the encoded size (R182) -/
  | insufficientCapacity
  /-- DEC: no terminating byte among the bytes given (R183) -/
  | incomplete
  /-- the select word is a reserved code (R184) -/
  | illegalOp
  deriving DecidableEq, Repr

/-- One access of an operation to its buffer operand, at an index of that buffer (R12, R43). -/
inductive Access where
  | read (index : Nat)
  | write (index : Nat) (byte : Byte)
  deriving DecidableEq, Repr

/-- The operands of one operation as the requester presents them (R22): the input ports, and the place of index 0
of the buffer operand in the requester's memory (log 4). -/
structure Request where
  op : SelectWord
  value : Lanes
  accIn : Lanes
  cap : Nat
  len : Nat
  base : Nat
  deriving DecidableEq, Repr

/-- The `acc_out` port at each width; an entry no operation drove is absent (R22, log 3). -/
structure AccLanes where
  w32 : Option (BitVec 32)
  w64 : Option (BitVec 64)
  w128 : Option (BitVec 128)
  deriving DecidableEq, Repr

/-- The result ports (R22). "a result port an operation does not drive carries no meaning after that operation and a
model must give it none (treat it as absent, not as zero)": an absent port is `none`. -/
structure Results where
  count : Option Nat
  accOut : AccLanes
  term : Option Bool
  status : Option Status
  deriving DecidableEq, Repr

/-- The requester's memory: address and byte, in canonical form (`Memory.wf`). -/
abbrev Memory := List Host.Cell

/-- The machine state. -/
structure State where
  /-- The build's parameters; carried here because a step takes only a state, and never changed (log 1). -/
  cfg : Config
  /-- Requests issued and not yet performed, in issue order (R49). -/
  issued : List Request
  /-- The input ports of the operation being performed, or of the last one. -/
  ports : Request
  /-- The requester's memory, where every buffer lies (R40, log 4). -/
  mem : Memory
  /-- The result ports. -/
  results : Results
  /-- The model's own record of the last operation's buffer accesses, in order (R45, log 12). -/
  accesses : List Access
  deriving DecidableEq, Repr

/-- There is none: "A model's step function for this block has no fault outcome" (R180). Having no constructor
is safe: the machine never stops where the block goes on. -/
inductive Fault where
  deriving DecidableEq, Repr

/-- What the model gives no meaning to. -/
inductive Refusal where
  /-- Raised by `exec` for an operation the model gives no meaning yet; no arm does so now. Safe: the machine stops. -/
  | notModelled (mnemonic : String)
  deriving DecidableEq, Repr

/-- An operand port with zero at every width. -/
def zeroLanes : Lanes := ⟨0, 0, 0⟩

/-- `acc_out` driven at no width. -/
def AccLanes.absent : AccLanes := ⟨none, none, none⟩

/-- No result port is driven (R34). -/
def Results.undriven : Results := ⟨none, AccLanes.absent, none, none⟩

/-- Input ports before the requester has presented anything: zero. DESIGN CHOICE, log 7. -/
def Request.unpresented : Request := ⟨0, zeroLanes, zeroLanes, 0, 0, 0⟩

/-- The machine after reset in the build `c`: nothing issued, no result driven (R34, R200). -/
def State.resetWith (c : Config) : State where
  cfg := c
  issued := []
  ports := Request.unpresented
  mem := []
  results := Results.undriven
  accesses := []

/-- The machine after reset, in the build with all 18 operations (DESIGN CHOICE, log 1). -/
def State.reset : State := State.resetWith (Config.mk true)

end Sys2Proof.Machine
end

