-- ==== Sys2Proof/Machine/Operands.lean ====
section
/-! DEFINITION. The width constants, the 7-bit groups of a value, the byte that carries a group, and what one byte does
to an accumulator (R7, R60, R63, R64, R111, R141). Values are W-bit vectors, so `<<<` is `shl_W` and `>>>` is `shr` (R11). -/

namespace Sys2Proof.Machine

/-! ### Constants of a width (R7) -/

/-- G(W), the number of full groups. -/
def groupCount (W : Nat) : Nat := W / 7

/-- E(W), the bits of the partial group. -/
def extraBits (W : Nat) : Nat := W % 7

/-- NMAX(W), the longest encoding (R69). -/
def maxBytes (W : Nat) : Nat := groupCount W + 1

/-- TOPSH(W), the left-grouped insertion shift. -/
def topShift (W : Nat) : Nat := W - 7

/-- PAD(W), the unused low data bits of a left-grouped partial-group byte. -/
def padBits (W : Nat) : Nat := 7 - extraBits W

/-! ### Groups -/

/-- `r_k(v)`, the right-aligned group k: `shr(v, 7k) & 0x7F` (R63). -/
def groupR (W : Nat) (v : BitVec W) (k : Nat) : Byte :=
  ((v >>> (7 * k)) &&& BitVec.ofNat W 0x7F).setWidth 8

/-- `h_k(v)`, the left-aligned group k: `shr(shl_W(v, 7k), W - 7)` (R64). -/
def groupL (W : Nat) (v : BitVec W) (k : Nat) : Byte :=
  ((v <<< (7 * k)) >>> topShift W).setWidth 8

/-! ### The encoded byte (R60) -/

/-- The byte with data `d` and continuation bit `more`: `C * 0x80 + D`. -/
def packByte (more : Bool) (d : Byte) : Byte :=
  if more then 0x80 ||| d else d

/-- The data field `D` of a byte, bits 6:0. -/
def dataBits (b : Byte) : Byte := b &&& 0x7F

/-! ### What one byte does to an accumulator -/

/-- `step_L_W(acc, b) = shr(acc, 7) | shl_W(zext_W(b), W - 7)`; `shl_W` drops bit 7 of `b` (R111). -/
def stepL (W : Nat) (acc : BitVec W) (b : Byte) : BitVec W :=
  (acc >>> 7) ||| (b.setWidth W <<< topShift W)

/-- `step_R_W(acc, b) = shl_W(acc, 7) | b[6:0]` (R141). -/
def stepR (W : Nat) (acc : BitVec W) (b : Byte) : BitVec W :=
  (acc <<< 7) ||| (dataBits b).setWidth W

end Sys2Proof.Machine
end

