-- ==== Sys2Proof/Machine/Flags.lean ====
section
/-! DEFINITION. The flag-like items: the continuation bit of a byte, the `term` result, and the `status` code as a
function of the operation's other results (R29, R61, R181, R185). -/

namespace Sys2Proof.Machine

/-- The continuation bit `C`, bit 7: more bytes follow (R61). -/
def continues (b : Byte) : Bool := b.getLsbD 7

/-- The 2-bit code of an outcome (R181). -/
def Status.code : Status → BitVec 2
  | .ok => 0
  | .insufficientCapacity => 1
  | .incomplete => 2
  | .illegalOp => 3

/-- ENC: `status = 0 when count >= 1; status = 1 when count = 0` (R185). -/
def statusOfCount (count : Nat) : Status :=
  if count = 0 then .insufficientCapacity else .ok

/-- DEC: `status = 0 when term = 1; status = 2 when term = 0` (R185). -/
def statusOfTerm (term : Bool) : Status :=
  if term then .ok else .incomplete

/-- The single-integer form of a DEC result (R81): `+count` when `term = 1`, `-count` when `term = 0`. -/
def signedCount (count : Nat) (term : Bool) : Int :=
  if term then (count : Int) else -(count : Int)

end Sys2Proof.Machine
end

