-- ==== Sys2Proof/Machine/Codec.lean ====
section
/-! DEFINITION. The loops of the block, written once for every width W: the two size computers, the sequence an encoder
writes, and the decoder's byte loop (R101, R106, R112, R131, R136, R142). -/

namespace Sys2Proof.Machine

/-! ### Encoded size -/

/-- How many times `shift` is applied to `t` until it is zero, counting at most `fuel` times. -/
def shiftsToZero {W : Nat} (shift : BitVec W → BitVec W) : Nat → BitVec W → Nat
  | 0, _ => 0
  | fuel + 1, t => if t = 0 then 0 else shiftsToZero shift fuel (shift t) + 1

/-- `size_L_W` (R101): 1 for zero, else the number of 7-bit left shifts until zero, "at most NMAX(W) iterations". -/
def sizeL (W : Nat) (v : BitVec W) : Nat :=
  if v = 0 then 1 else shiftsToZero (fun t => t <<< 7) (maxBytes W) v

/-- `size_R_W` (R131): 1 up to 0x7F, else the number of 7-bit right shifts until zero, "at most NMAX(W) iterations". -/
def sizeR (W : Nat) (v : BitVec W) : Nat :=
  if v.toNat ≤ 0x7F then 1 else shiftsToZero (fun t => t >>> 7) (maxBytes W) v

/-! ### Encoded bytes -/

/-- The bytes that carry the groups n-1 down to 0, in buffer order: the continuation bit is set on all but the last,
group 0 (R62, R106, R136). -/
def emitGroups (group : Nat → Byte) : Nat → List Byte
  | 0 => []
  | k + 1 => packByte (k ≠ 0) (group k) :: emitGroups group k

/-- `enc_L_W(v)`, the sequence `ENC.L.W` writes (R66, R106). -/
def encodingL (W : Nat) (v : BitVec W) : List Byte := emitGroups (groupL W v) (sizeL W v)

/-- `enc_R_W(v)`, the sequence `ENC.R.W` writes (R65, R136). -/
def encodingR (W : Nat) (v : BitVec W) : List Byte := emitGroups (groupR W v) (sizeR W v)

/-! ### The decoder's loop -/

/-- What a decode ends with: the accumulator, the bytes consumed, whether a terminator was consumed, and the reads. -/
structure DecodeRun (W : Nat) where
  acc : BitVec W
  count : Nat
  term : Bool
  accesses : List Access
  deriving DecidableEq, Repr

/-- The loop of R112 and R142 from cursor `i` with `left = len - i` bytes still allowed: the bound is checked before
every read, the byte is folded in, and a clear continuation bit ends the loop. -/
def decodeLoop {W : Nat} (fold : BitVec W → Byte → BitVec W) (byteAt : Nat → Byte) :
    Nat → Nat → BitVec W → DecodeRun W
  | 0, i, acc => ⟨acc, i, false, []⟩
  | left + 1, i, acc =>
    if continues (byteAt i) then
      let rest := decodeLoop fold byteAt left (i + 1) (fold acc (byteAt i))
      { rest with accesses := Access.read i :: rest.accesses }
    else ⟨fold acc (byteAt i), i + 1, true, [Access.read i]⟩

end Sys2Proof.Machine
end

