-- ==== Sys2Proof/Machine/Ops.lean ====
section
/-! DEFINITION. The operations over memory and ports that the meanings share: one byte of memory, the store of an encoding,
driving the result ports, performing a size, an encode and a decode, and the in-band refusal of a reserved code, which is
all this block has in place of an exception entry (R180, R184, R187). -/

namespace Sys2Proof.Machine

/-! ### Memory -/

/-- The byte at an address: the one last stored there (R52), or `unlistedByte`. -/
def Memory.read : Memory → Nat → Byte
  | [], _ => unlistedByte
  | (a, b) :: rest, at_ => if a = at_ then b else Memory.read rest at_

/-- The cells of every other address. -/
def Memory.erase (m : Memory) (addr : Nat) : Memory := m.filter (fun c => c.1 ≠ addr)

/-- Puts a cell before the first one with a higher address. -/
def Memory.insert (addr : Nat) (b : Byte) : Memory → Memory
  | [] => [(addr, b)]
  | c :: rest => if addr < c.1 then (addr, b) :: c :: rest else c :: Memory.insert addr b rest

/-- Stores one byte (R12, R43). The cell is left out when the byte is what an unlisted address reads as. -/
def Memory.write (m : Memory) (addr : Nat) (b : Byte) : Memory :=
  if b = unlistedByte then m.erase addr else Memory.insert addr b (m.erase addr)

/-- The canonical form: addresses strictly rising, and no cell that holds `unlistedByte`. -/
def Memory.wf : Memory → Bool
  | [] => true
  | c :: rest => decide (c.2 ≠ unlistedByte) && rest.all (fun d => decide (c.1 < d.1)) && Memory.wf rest

/-- Memory and accesses after a run of stores. -/
structure Stored where
  mem : Memory
  accesses : List Access
  deriving DecidableEq, Repr

/-- `MemWrite(i, 1, b)` for each byte at ascending indices from `i` of the buffer at `base` (R45). -/
def storeBytes (base : Nat) : Memory → Nat → List Byte → Stored
  | m, _, [] => ⟨m, []⟩
  | m, i, b :: rest =>
    let after := storeBytes base (m.write (base + i) b) (i + 1) rest
    ⟨after.mem, Access.write i b :: after.accesses⟩

/-- `MemRead(i, 1)`: the byte at an index of the buffer operand (R12, R40). -/
def State.bufferByte (s : State) (i : Nat) : Byte := s.mem.read (s.ports.base + i)

/-! ### Ports -/

/-- The end of an operation: the result ports take its results, and its accesses are recorded. -/
def State.finish (s : State) (r : Results) (accesses : List Access) : State :=
  { s with results := r, accesses := accesses }

/-- The start of an operation: the head request is on the input ports, the others wait (R49). -/
def State.accept (s : State) (r : Request) (rest : List Request) : State :=
  { s with ports := r, issued := rest }

/-- `acc_out` driven at 32 bits. -/
def AccLanes.of32 (a : BitVec 32) : AccLanes := { AccLanes.absent with w32 := some a }

/-- `acc_out` driven at 64 bits. -/
def AccLanes.of64 (a : BitVec 64) : AccLanes := { AccLanes.absent with w64 := some a }

/-- `acc_out` driven at 128 bits. -/
def AccLanes.of128 (a : BitVec 128) : AccLanes := { AccLanes.absent with w128 := some a }

/-- `acc_out = acc_in`, at whatever width the requester presented (R184, log 3). -/
def AccLanes.ofLanes (l : Lanes) : AccLanes := ⟨some l.w32, some l.w64, some l.w128⟩

/-! ### Performing an operation -/

/-- SIZE drives `count` and `status = OK` (R103); no buffer access. -/
def State.sized (s : State) (n : Nat) : State :=
  s.finish ⟨some n, AccLanes.absent, none, some .ok⟩ []

/-- ENC of a value whose size is `n` and whose encoding is `bytes`: the capacity is checked before the first write;
too small a buffer is left as it was (R42, R46, R106, R136, R182). -/
def State.encoded (s : State) (n : Nat) (bytes : List Byte) : State :=
  if s.ports.cap < n then
    s.finish ⟨some 0, AccLanes.absent, none, some (statusOfCount 0)⟩ []
  else
    let stored := storeBytes s.ports.base s.mem 0 bytes
    { s with mem := stored.mem }.finish ⟨some n, AccLanes.absent, none, some (statusOfCount n)⟩ stored.accesses

/-- DEC drives `acc_out`, `count`, `term` and `status` from the loop's end (R112, R142); memory is not written. -/
def State.decoded {W : Nat} (s : State) (lane : BitVec W → AccLanes) (r : DecodeRun W) : State :=
  s.finish ⟨some r.count, lane r.acc, some r.term, some (statusOfTerm r.term)⟩ r.accesses

/-- The loop of a DEC over the buffer operand, from index 0 and the accumulator presented. -/
def State.decodeRun {W : Nat} (s : State) (fold : BitVec W → Byte → BitVec W) (acc : BitVec W) : DecodeRun W :=
  decodeLoop fold s.bufferByte s.ports.len 0 acc

/-- A reserved select code: no buffer access, `count = 0`, `term = 0`, `acc_out = acc_in`, ILLEGAL_OP (R78, R184). -/
def State.illegalOp (s : State) : State :=
  s.finish ⟨some 0, AccLanes.ofLanes s.ports.accIn, some false, some .illegalOp⟩ []

/-- A 128-bit operation has its effect only in a build that has it; else its code is reserved (R6, R77). -/
def State.ifW128 (s : State) (effect : State) : State :=
  if s.cfg.hasW128 then effect else s.illegalOp

end Sys2Proof.Machine
end

