-- ==== Sys2Proof/Machine/LeftGrouped.lean ====
section
/-! DEFINITION. The left-grouped family: one meaning for each of SIZE.L, ENC.L and DEC.L at widths 32, 64 and 128
(R100 to R119). -/

namespace Sys2Proof.Machine

/-- `SIZE.L.32`: encoded size of a 32-bit value, left-grouped (R103). -/
def execSizeL32 (s : State) : Host.Outcome State Fault Refusal :=
  .next (s.sized (sizeL 32 s.ports.value.w32))

/-- `SIZE.L.64`: encoded size of a 64-bit value, left-grouped (R104). -/
def execSizeL64 (s : State) : Host.Outcome State Fault Refusal :=
  .next (s.sized (sizeL 64 s.ports.value.w64))

/-- `SIZE.L.128`: encoded size of a 128-bit value, left-grouped (R105). Exists only when HAS_W128 is true. -/
def execSizeL128 (s : State) : Host.Outcome State Fault Refusal :=
  .next (s.ifW128 (s.sized (sizeL 128 s.ports.value.w128)))

/-- `ENC.L.32`: encode a 32-bit value, left-grouped (R108). -/
def execEncL32 (s : State) : Host.Outcome State Fault Refusal :=
  .next (s.encoded (sizeL 32 s.ports.value.w32) (encodingL 32 s.ports.value.w32))

/-- `ENC.L.64`: encode a 64-bit value, left-grouped (R109). -/
def execEncL64 (s : State) : Host.Outcome State Fault Refusal :=
  .next (s.encoded (sizeL 64 s.ports.value.w64) (encodingL 64 s.ports.value.w64))

/-- `ENC.L.128`: encode a 128-bit value, left-grouped (R110). Exists only when HAS_W128 is true. -/
def execEncL128 (s : State) : Host.Outcome State Fault Refusal :=
  .next (s.ifW128 (s.encoded (sizeL 128 s.ports.value.w128) (encodingL 128 s.ports.value.w128)))

/-- `DEC.L.32`: decode into a 32-bit accumulator, left-grouped (R115). -/
def execDecL32 (s : State) : Host.Outcome State Fault Refusal :=
  .next (s.decoded AccLanes.of32 (s.decodeRun (stepL 32) s.ports.accIn.w32))

/-- `DEC.L.64`: decode into a 64-bit accumulator, left-grouped (R116). -/
def execDecL64 (s : State) : Host.Outcome State Fault Refusal :=
  .next (s.decoded AccLanes.of64 (s.decodeRun (stepL 64) s.ports.accIn.w64))

/-- `DEC.L.128`: decode into a 128-bit accumulator, left-grouped (R117). Exists only when HAS_W128 is true. -/
def execDecL128 (s : State) : Host.Outcome State Fault Refusal :=
  .next (s.ifW128 (s.decoded AccLanes.of128 (s.decodeRun (stepL 128) s.ports.accIn.w128)))

end Sys2Proof.Machine
end

