-- ==== Sys2Proof/Machine/RightGrouped.lean ====
section
/-! DEFINITION. The right-grouped family: one meaning for each of SIZE.R, ENC.R and DEC.R at widths 32, 64 and 128
(R130 to R149). -/

namespace Sys2Proof.Machine

/-- `SIZE.R.32`: encoded size of a 32-bit value, right-grouped (R133). -/
def execSizeR32 (s : State) : Host.Outcome State Fault Refusal :=
  .next (s.sized (sizeR 32 s.ports.value.w32))

/-- `SIZE.R.64`: encoded size of a 64-bit value, right-grouped (R134). -/
def execSizeR64 (s : State) : Host.Outcome State Fault Refusal :=
  .next (s.sized (sizeR 64 s.ports.value.w64))

/-- `SIZE.R.128`: encoded size of a 128-bit value, right-grouped (R135). Exists only when HAS_W128 is true. -/
def execSizeR128 (s : State) : Host.Outcome State Fault Refusal :=
  .next (s.ifW128 (s.sized (sizeR 128 s.ports.value.w128)))

/-- `ENC.R.32`: encode a 32-bit value, right-grouped (R138). -/
def execEncR32 (s : State) : Host.Outcome State Fault Refusal :=
  .next (s.encoded (sizeR 32 s.ports.value.w32) (encodingR 32 s.ports.value.w32))

/-- `ENC.R.64`: encode a 64-bit value, right-grouped (R139). -/
def execEncR64 (s : State) : Host.Outcome State Fault Refusal :=
  .next (s.encoded (sizeR 64 s.ports.value.w64) (encodingR 64 s.ports.value.w64))

/-- `ENC.R.128`: encode a 128-bit value, right-grouped (R140). Exists only when HAS_W128 is true. -/
def execEncR128 (s : State) : Host.Outcome State Fault Refusal :=
  .next (s.ifW128 (s.encoded (sizeR 128 s.ports.value.w128) (encodingR 128 s.ports.value.w128)))

/-- `DEC.R.32`: decode into a 32-bit accumulator, right-grouped (R145). -/
def execDecR32 (s : State) : Host.Outcome State Fault Refusal :=
  .next (s.decoded AccLanes.of32 (s.decodeRun (stepR 32) s.ports.accIn.w32))

/-- `DEC.R.64`: decode into a 64-bit accumulator, right-grouped (R146). -/
def execDecR64 (s : State) : Host.Outcome State Fault Refusal :=
  .next (s.decoded AccLanes.of64 (s.decodeRun (stepR 64) s.ports.accIn.w64))

/-- `DEC.R.128`: decode into a 128-bit accumulator, right-grouped (R147). Exists only when HAS_W128 is true. -/
def execDecR128 (s : State) : Host.Outcome State Fault Refusal :=
  .next (s.ifW128 (s.decoded AccLanes.of128 (s.decodeRun (stepR 128) s.ports.accIn.w128)))

end Sys2Proof.Machine
end

