-- ==== Sys2Proof/Machine/Dispatch.lean ====
section
/-! DEFINITION. One arm per operation. -/

namespace Sys2Proof.Machine

/-- Performs an operation on the operands its ports present. -/
def exec (i : Instr) (s : State) : Host.Outcome State Fault Refusal :=
  match i with
  | .sizeL32 => Sys2Proof.Machine.execSizeL32 s
  | .encL32 => Sys2Proof.Machine.execEncL32 s
  | .decL32 => Sys2Proof.Machine.execDecL32 s
  | .sizeR32 => Sys2Proof.Machine.execSizeR32 s
  | .encR32 => Sys2Proof.Machine.execEncR32 s
  | .decR32 => Sys2Proof.Machine.execDecR32 s
  | .sizeL64 => Sys2Proof.Machine.execSizeL64 s
  | .encL64 => Sys2Proof.Machine.execEncL64 s
  | .decL64 => Sys2Proof.Machine.execDecL64 s
  | .sizeR64 => Sys2Proof.Machine.execSizeR64 s
  | .encR64 => Sys2Proof.Machine.execEncR64 s
  | .decR64 => Sys2Proof.Machine.execDecR64 s
  | .sizeL128 => Sys2Proof.Machine.execSizeL128 s
  | .encL128 => Sys2Proof.Machine.execEncL128 s
  | .decL128 => Sys2Proof.Machine.execDecL128 s
  | .sizeR128 => Sys2Proof.Machine.execSizeR128 s
  | .encR128 => Sys2Proof.Machine.execEncR128 s
  | .decR128 => Sys2Proof.Machine.execDecR128 s

end Sys2Proof.Machine
end

