-- ==== Sys2Proof/Machine/Step.lean ====
section
/-! DEFINITION. One step: the block performs the request at the head of those issued (R14, R49), or is idle (R192, R200). -/

namespace Sys2Proof.Machine

/-- Performs the select word on the input ports, "The select word is examined first" (R186): the operation it names,
or the in-band refusal of a reserved code (R184). -/
def State.perform (s : State) : Host.Outcome State Fault Refusal :=
  match decode s.cfg s.ports.op with
  | .ok i => exec i s
  | .error _ => .next s.illegalOp

/-- One step. With nothing issued the block is idle and nothing changes (log 6). -/
def step (s : State) : Host.Outcome State Fault Refusal :=
  match s.issued with
  | [] => .next s
  | r :: rest => (s.accept r rest).perform

/-- `s` with a table word as the select word of the request the next step performs: the head of those issued, or, when
none is, one request with the operands now on the input ports (log 9). -/
def State.withFetchWord (s : State) (_nbits w : Nat) : State :=
  match s.issued with
  | [] => { s with issued := [{ s.ports with op := BitVec.ofNat 5 w }] }
  | r :: rest => { s with issued := { r with op := BitVec.ofNat 5 w } :: rest }

end Sys2Proof.Machine
end

