-- ==== Sys2Proof/Machine/Forms.lean ====
section
/-! DEFINITION. The spec's own second forms of the codec, beside the loops the machine runs: the functions by orientation
(`size_O_W`, `enc_O_W`, `dec_O_W`), the encoders' scan procedure (R107, R137), and the decoders' closed forms (R114, R144). -/

namespace Sys2Proof.Machine

/-! ### By orientation and width -/

/-- `size_O_W(v)` (R101, R131). -/
def encodedSize (o : Orient) (W : Nat) (v : BitVec W) : Nat :=
  match o with
  | .left => sizeL W v
  | .right => sizeR W v

/-- The group `h_k(v)` (L, R64) or `r_k(v)` (R, R63). -/
def groupOf (o : Orient) (W : Nat) (v : BitVec W) : Nat → Byte :=
  match o with
  | .left => groupL W v
  | .right => groupR W v

/-- `enc_O_W(v)` (42_properties, shorthand). -/
def encodingOf (o : Orient) (W : Nat) (v : BitVec W) : List Byte :=
  match o with
  | .left => encodingL W v
  | .right => encodingR W v

/-- `step_O_W(acc, b)` (R111, R141). -/
def stepOf (o : Orient) (W : Nat) (acc : BitVec W) (b : Byte) : BitVec W :=
  match o with
  | .left => stepL W acc b
  | .right => stepR W acc b

/-- `dec_O_W(a, S)`: the decode of a byte sequence with `len` its length (42_properties, shorthand). -/
def decodeSeq (o : Orient) (W : Nat) (a : BitVec W) (S : List Byte) : DecodeRun W :=
  decodeLoop (stepOf o W) (fun i => S.getD i 0) S.length 0 a

/-- `acc_out` driven at one width. -/
def AccLanes.of : (w : Width) → BitVec w.bits → AccLanes
  | .w32, a => AccLanes.of32 a
  | .w64, a => AccLanes.of64 a
  | .w128, a => AccLanes.of128 a

/-- `acc_out` as an operation of one width drives it. -/
def AccLanes.get (l : AccLanes) : (w : Width) → Option (BitVec w.bits)
  | .w32 => l.w32
  | .w64 => l.w64
  | .w128 => l.w128

/-! ### The scan form of the encoders (R107, R137) -/

/-- `while k > 0 and g_k = 0 do k <- k - 1`. -/
def scanDown (group : Nat → Byte) : Nat → Nat
  | 0 => 0
  | k + 1 => if group (k + 1) = 0 then scanDown group k else k + 1

/-- `for j = k downto 0`: the groups k to 0, the continuation bit set on all but group 0. -/
def emitDown (group : Nat → Byte) : Nat → List Byte
  | 0 => [group 0]
  | j + 1 => (0x80 ||| group (j + 1)) :: emitDown group j

/-- The sequence the scan form writes: the partial group first when it is not zero, else the scan skips zero groups. -/
def scanEncoding (o : Orient) (W : Nat) (v : BitVec W) : List Byte :=
  let g := groupOf o W v
  if g (groupCount W) ≠ 0 then
    (0x80 ||| g (groupCount W)) :: emitDown g (groupCount W - 1)
  else emitDown g (scanDown g (groupCount W - 1))

/-! ### The closed forms of the decoders -/

/-- R114: `shr(acc_in, 7c) | OR over i in 0..c-1 of shr(D_i * 2^(W-7), 7(c-1-i))`. -/
def closedL (W : Nat) (accIn : BitVec W) (byteAt : Nat → Byte) (c : Nat) : BitVec W :=
  (List.range c).foldl
    (fun x i => x ||| (((dataBits (byteAt i)).setWidth W <<< topShift W) >>> (7 * (c - 1 - i))))
    (accIn >>> (7 * c))

/-- R144: `( acc_in * 2^(7c) + sum over i in 0..c-1 of D_i * 2^(7(c-1-i)) ) mod 2^W`. -/
def closedR (W : Nat) (accIn : BitVec W) (byteAt : Nat → Byte) (c : Nat) : Nat :=
  (accIn.toNat * 2 ^ (7 * c)
    + ((List.range c).map (fun i => (dataBits (byteAt i)).toNat * 2 ^ (7 * (c - 1 - i)))).sum) % 2 ^ W

end Sys2Proof.Machine
end

