-- ==== Sys2Proof/Machine/Requester.lean ====
section
/-! DEFINITION. The host interface: what the requester may do between operations, and how it builds the next request from the
last results (R49, R53, R200, R204, R205, R207). Nothing here is done by the block. -/

namespace Sys2Proof.Machine

/-- The requester issues one more operation, behind those already issued (R49). -/
def State.issue (s : State) (r : Request) : State := { s with issued := s.issued ++ [r] }

/-- Reset between operations (R34, R200): the result ports carry no meaning any more; memory and requests are the
requester's and are not touched. The requests already issued stay (log 11). -/
def State.applyReset (s : State) : State := { s with results := Results.undriven, accesses := [] }

/-- The requester puts its own operands on the input ports and stores its own memory. -/
def State.present (s : State) (r : Request) : State := { s with ports := r }

/-- An accumulator operand taken from what a DEC drove; a width it did not drive keeps what it had (R205). -/
def Lanes.takeFrom (l : Lanes) (a : AccLanes) : Lanes :=
  ⟨a.w32.getD l.w32, a.w64.getD l.w64, a.w128.getD l.w128⟩

/-- The DEC that goes on with the same value: the accumulator handed over unchanged, and a buffer of `len` bytes at `base`
(R205). -/
def Request.resume (r : Request) (o : Results) (base len : Nat) : Request :=
  { r with accIn := Lanes.takeFrom r.accIn o.accOut, base := base, len := len }

/-- The next operation on the same stream: the buffer begins where the last one ended, `cap` and `len` are reduced by `count`,
and the accumulator starts at zero (R53, R204, R207). -/
def Request.following (r : Request) (o : Results) : Request :=
  { r with
    accIn := zeroLanes
    base := r.base + o.count.getD 0
    cap := r.cap - o.count.getD 0
    len := r.len - o.count.getD 0 }

end Sys2Proof.Machine
end

