-- ==== Sys2Proof/Safety.lean ====
section
/-! DEFINITION. The terms statements use: a safe step, what every operation keeps, where a byte sequence ends, which results belong
together, the machine's invariant, and the footprint of a request. -/

namespace Sys2Proof.Machine

/-- The step goes on: no fault and no refusal (R180). -/
def State.Safe (s : State) : Prop := ∃ t, step s = .next t

/-- The build parameters, the requests waiting and the operands are the same: an operation changes none of them (R23, R31, R49). -/
def State.Kept (s t : State) : Prop := t.cfg = s.cfg ∧ t.issued = s.issued ∧ t.ports = s.ports

/-- The first terminator among the bytes at indices below `len` is at index `k` (R72). -/
def TerminatesAt (byteAt : Nat → Byte) (len k : Nat) : Prop :=
  k < len ∧ continues (byteAt k) = false ∧ ∀ j < k, continues (byteAt j) = true

/-- None of the bytes at indices below `len` is a terminator (R183). -/
def Unterminated (byteAt : Nat → Byte) (len : Nat) : Prop := ∀ j < len, continues (byteAt j) = true

/-- The buffer operand begins with these bytes. -/
def State.Holds (s : State) (S : List Byte) : Prop := ∀ i < S.length, s.bufferByte i = S.getD i 0

/-- `acc_out` is driven at exactly one width. -/
def AccLanes.one (l : AccLanes) : Bool :=
  match l.w32, l.w64, l.w128 with
  | some _, none, none => true
  | none, some _, none => true
  | none, none, some _ => true
  | _, _, _ => false

/-- The results that can stand on the ports (R22, R34, R181, R185): none driven; those of a SIZE or ENC; those of a DEC;
those of a reserved code. -/
def Results.coherent (r : Results) : Bool :=
  match r.count, r.term, r.status with
  | none, none, none => decide (r.accOut = AccLanes.absent)
  | some n, none, some st => decide (r.accOut = AccLanes.absent) && decide (st = statusOfCount n)
  | some n, some tm, some .illegalOp =>
    decide (n = 0) && !tm && r.accOut.w32.isSome && r.accOut.w64.isSome && r.accOut.w128.isSome
  | some n, some tm, some st => r.accOut.one && decide (st = statusOfTerm tm) && (!tm || decide (0 < n))
  | _, _, _ => false

/-- An access inside the buffer the operands describe: reads below `len`, writes below `cap` (R42). -/
def Access.inBounds (p : Request) : Access → Bool
  | .read i => decide (i < p.len)
  | .write i _ => decide (i < p.cap)

/-- The buffer index of an access. -/
def Access.index : Access → Nat
  | .read i => i
  | .write i _ => i

/-- Whether an access reads. -/
def Access.isRead : Access → Bool
  | .read _ => true
  | .write _ _ => false

/-- The machine's invariant: memory is in canonical form, the results on the ports belong together, and the last operation
stayed inside its buffer. -/
def State.Inv (s : State) : Prop :=
  s.mem.wf = true ∧ s.results.coherent = true ∧ ∀ a ∈ s.accesses, a.inBounds s.ports = true

/-- An address a request may write: an ENC that exists in the build, indices below `cap` (R41, R42). -/
def Request.MayWrite (c : Config) (r : Request) (addr : Nat) : Prop :=
  ∃ i, decode c r.op = .ok i ∧ i.func = .enc ∧ r.base ≤ addr ∧ addr < r.base + r.cap

/-- An address a request may read: a DEC that exists in the build, indices below `len` (R41, R42). -/
def Request.MayRead (c : Config) (r : Request) (addr : Nat) : Prop :=
  ∃ i, decode c r.op = .ok i ∧ i.func = .dec ∧ r.base ≤ addr ∧ addr < r.base + r.len

/-- Two requests "operate on disjoint buffers" (R48): neither may write a byte the other may read or write. -/
def Request.Disjoint (c : Config) (p q : Request) : Prop :=
  ∀ addr, ¬ (p.MayWrite c addr ∧ (q.MayWrite c addr ∨ q.MayRead c addr)) ∧
    ¬ (q.MayWrite c addr ∧ (p.MayWrite c addr ∨ p.MayRead c addr))

end Sys2Proof.Machine
end

