-- ==== Sys2Proof/Certificates/Slice0/Obligations.lean ====
section
/-! DEFINITION. The statements for the provers. `Instr.ofFields .size .left w` stands for SIZE.L.32, SIZE.L.64 and SIZE.L.128
as `w` ranges over the three widths, and so for the other functions and the right-grouped orientation. -/

open Sys2Proof Sys2Proof.Machine

/-! ### The select word -/

/-- A word written out from R77 for every function, orientation and width. -/
def Obligations.SpecWordsDecodeToTheirOperations : Prop :=
  decode ⟨true⟩ 0b00000#5 = .ok .sizeL32 ∧ decode ⟨true⟩ 0b00001#5 = .ok .encL32 ∧
  decode ⟨true⟩ 0b00110#5 = .ok .decR32 ∧ decode ⟨true⟩ 0b01010#5 = .ok .decL64 ∧
  decode ⟨true⟩ 0b01101#5 = .ok .encR64 ∧ decode ⟨true⟩ 0b10100#5 = .ok .sizeR128

/-- Decode of encode is the operation itself, for every operation a build has. -/
def Obligations.DecodeOfEncodeIsTheOperation : Prop :=
  ∀ (c : Config) (i : Instr), i.wf c = true → decode c (encode i) = .ok i

/-- A select word names at most one operation: the one whose select word it is (R77). -/
def Obligations.DecodedWordIsTheEncoding : Prop :=
  ∀ (c : Config) (op : SelectWord) (i : Instr), decode c op = .ok i → i.wf c = true ∧ encode i = op

/-- The fields of the select word, the operation each combination names, and the codes that are reserved (R77). -/
def Obligations.SelectWordFieldsAndReservedCodes : Prop :=
  Width.w32.code = 0b00#2 ∧ Width.w64.code = 0b01#2 ∧ Width.w128.code = 0b10#2 ∧
  Orient.left.code = 0b0#1 ∧ Orient.right.code = 0b1#1 ∧
  Func.size.code = 0b00#2 ∧ Func.enc.code = 0b01#2 ∧ Func.dec.code = 0b10#2 ∧
  ∀ c : Config,
    (∀ (f : Func) (o : Orient) (w : Width), (w = .w128 → c.hasW128 = true) →
      decode c (w.code ++ o.code ++ f.code) = .ok (Instr.ofFields f o w)) ∧
    ∀ op : SelectWord, (∃ e, decode c op = .error e) ↔
      (op.extractLsb' 0 2 = 0b11#2 ∨ op.extractLsb' 3 2 = 0b11#2 ∨
        (op.extractLsb' 3 2 = 0b10#2 ∧ c.hasW128 = false))

/-! ### One step -/

/-- When the head request's select word decodes, the step is that operation on that request's operands, the other requests
waiting. -/
def Obligations.StepRunsTheDecodedOperation : Prop :=
  ∀ (s : State) (r : Request) (rest : List Request) (i : Instr), s.issued = r :: rest → decode s.cfg r.op = .ok i →
    step s = exec i { s with ports := r, issued := rest }

/-- A reserved code: no operation, no buffer access, `acc_out = acc_in` (at each width presented, log 3). -/
def Obligations.StepOfReservedCodeIsIllegalOp : Prop :=
  ∀ (s : State) (r : Request) (rest : List Request) (e : DecodeError), s.issued = r :: rest →
    decode s.cfg r.op = .error e →
    step s = .next { s with
      ports := r
      issued := rest
      results := ⟨some 0, ⟨some r.accIn.w32, some r.accIn.w64, some r.accIn.w128⟩, some false, some .illegalOp⟩
      accesses := [] }

/-- In a build without HAS_W128 each of the six 128-bit operations has the effect of a reserved code, and in every build
those six are the only operations that can be absent. -/
def Obligations.AbsentWidth128IsIllegalOp : Prop :=
  ∀ (i : Instr) (s : State),
    (i.wf s.cfg = false ↔ i.width = .w128 ∧ s.cfg.hasW128 = false) ∧
    (i.wf s.cfg = false → exec i s = .next { s with
      results := ⟨some 0, ⟨some s.ports.accIn.w32, some s.ports.accIn.w64, some s.ports.accIn.w128⟩, some false,
        some .illegalOp⟩
      accesses := [] })

/-- With nothing issued the block is idle: nothing changes. That an idle step is a step at all is the model's choice, log 6. -/
def Obligations.StepIsIdleWhenNothingIsIssued : Prop :=
  ∀ s : State, s.issued = [] → step s = .next s

/-- Every select code and every operand value yields results: no fault, no refusal, and once a request is performed `count`
and `status` are driven. -/
def Obligations.EveryStepAnswersANextState : Prop :=
  ∀ s : State, s.Safe ∧ ∀ (r : Request) (rest : List Request), s.issued = r :: rest →
    ∃ (t : State) (n : Nat) (st : Status), step s = .next t ∧ t.results.count = some n ∧ t.results.status = some st

/-- Requests are performed one after another in the order issued: after as many steps as the first list is long, the second
list waits and the last operation's request is on the ports. -/
def Obligations.RequestsArePerformedInIssueOrder : Prop :=
  ∀ (s : State) (done waiting : List Request), s.issued = done ++ waiting →
    ∃ t : State, Host.Core.run Sys2Proof.core done.length s = .next t ∧ t.issued = waiting ∧ t.cfg = s.cfg ∧
      ∀ r, done.getLast? = some r → t.ports = r

/-! ### Reset -/

/-- After reset no result port has a meaning, and nothing is issued; the operand values there are the model's choice (log 7)
and are not stated. -/
def Obligations.ResetDrivesNoResult : Prop :=
  ∀ c : Config, (State.resetWith c).cfg = c ∧ (State.resetWith c).issued = [] ∧
    (State.resetWith c).results = ⟨none, ⟨none, none, none⟩, none, none⟩ ∧ step (State.resetWith c) = .next (State.resetWith c)

/-- Reset between operations touches neither memory nor operands, and the operation after it does exactly what it would have
done without it. -/
def Obligations.FirstOperationAfterResetIsLikeAnyOther : Prop :=
  ∀ (i : Instr) (s : State), s.applyReset.mem = s.mem ∧ s.applyReset.ports = s.ports ∧
    s.applyReset.results = ⟨none, ⟨none, none, none⟩, none, none⟩ ∧ exec i s.applyReset = exec i s

/-! ### SIZE -/

/-- SIZE.L.32, SIZE.L.64, SIZE.L.128 have select code `width` 0 00 and complete, drive `count` and `status` only, and touch nothing else; the count is the number
of groups from the top one down to the one that holds the lowest set bit z. -/
def Obligations.SizeLeftCountsDownToTheLowestSetBit : Prop :=
  ∀ (w : Width) (s : State), (Instr.ofFields .size .left w).wf s.cfg = true →
    decode s.cfg (w.code ++ 0b0#1 ++ 0b00#2) = .ok (Instr.ofFields .size .left w) ∧
    ∃ n, exec (Instr.ofFields .size .left w) s =
        .next { s with results := ⟨some n, ⟨none, none, none⟩, none, some .ok⟩, accesses := [] } ∧
      1 ≤ n ∧ n ≤ w.bits / 7 + 1 ∧
      (s.ports.value.get w = 0 → n = 1) ∧
      ∀ z, (s.ports.value.get w).getLsbD z = true → (∀ j < z, (s.ports.value.get w).getLsbD j = false) →
        n = (w.bits - 1 - z) / 7 + 1

/-- SIZE.R.32, SIZE.R.64, SIZE.R.128 have select code `width` 1 00 and complete, drive `count` and `status` only, and touch nothing else; the count is the number
of groups from the lowest one up to the one that holds the highest set bit m. -/
def Obligations.SizeRightCountsUpToTheHighestSetBit : Prop :=
  ∀ (w : Width) (s : State), (Instr.ofFields .size .right w).wf s.cfg = true →
    decode s.cfg (w.code ++ 0b1#1 ++ 0b00#2) = .ok (Instr.ofFields .size .right w) ∧
    ∃ n, exec (Instr.ofFields .size .right w) s =
        .next { s with results := ⟨some n, ⟨none, none, none⟩, none, some .ok⟩, accesses := [] } ∧
      1 ≤ n ∧ n ≤ w.bits / 7 + 1 ∧
      (s.ports.value.get w = 0 → n = 1) ∧
      ∀ m, (s.ports.value.get w).getLsbD m = true → (∀ j, m < j → (s.ports.value.get w).getLsbD j = false) →
        n = m / 7 + 1

/-- The right-grouped size is the least n >= 1 with v < 2^(7n): it is at least 1, and among the n >= 1 those from it on
are exactly the ones with v < 2^(7n). -/
def Obligations.SizeRightIsTheLeastLengthThatFits : Prop :=
  ∀ (w : Width) (v : BitVec w.bits), 1 ≤ encodedSize .right w.bits v ∧
    ∀ n, 1 ≤ n → (encodedSize .right w.bits v ≤ n ↔ v.toNat < 2 ^ (7 * n))

/-- The size of a value that is not zero is one more than the number of its highest-numbered group that is not zero. -/
def Obligations.SizeIsOneMoreThanTheHighestNonzeroGroup : Prop :=
  ∀ (o : Orient) (w : Width) (v : BitVec w.bits), v ≠ 0 →
    ∃ k ≤ groupCount w.bits, encodedSize o w.bits v = k + 1 ∧ groupOf o w.bits v k ≠ 0 ∧
      ∀ j, k < j → j ≤ groupCount w.bits → groupOf o w.bits v j = 0

/-- Size bounds, with NMAX = 5, 10 and 19. -/
def Obligations.SizeIsBetweenOneAndNMAX : Prop :=
  ∀ (o : Orient) (w : Width) (v : BitVec w.bits), 1 ≤ encodedSize o w.bits v ∧
    (w = .w32 → encodedSize o w.bits v ≤ 5) ∧ (w = .w64 → encodedSize o w.bits v ≤ 10) ∧
    (w = .w128 → encodedSize o w.bits v ≤ 19)

/-! ### ENC -/

/-- ENC.L.32, ENC.L.64, ENC.L.128 have select code `width` 0 01 and complete. With too little capacity nothing changes but the results. Otherwise the byte at
index i carries group k = n-1-i of R64, bit j of its data being bit W-7-7k+j of the value (0 where that is below bit 0),
its continuation bit set unless it is the last; every address outside the n stored bytes reads as before. -/
def Obligations.EncodeLeftWritesTheGroupsOfTheValue : Prop :=
  ∀ (w : Width) (s : State), (Instr.ofFields .enc .left w).wf s.cfg = true →
    decode s.cfg (w.code ++ 0b0#1 ++ 0b01#2) = .ok (Instr.ofFields .enc .left w) ∧
    (s.ports.cap < encodedSize .left w.bits (s.ports.value.get w) →
      exec (Instr.ofFields .enc .left w) s =
        .next { s with results := ⟨some 0, ⟨none, none, none⟩, none, some .insufficientCapacity⟩, accesses := [] }) ∧
    ∀ n, n = encodedSize .left w.bits (s.ports.value.get w) → n ≤ s.ports.cap →
      ∃ m : Memory, exec (Instr.ofFields .enc .left w) s =
          .next { s with
            mem := m
            results := ⟨some n, ⟨none, none, none⟩, none, some .ok⟩
            accesses := (List.range n).map (fun i => .write i (m.read (s.ports.base + i))) } ∧
        (∀ i < n, continues (m.read (s.ports.base + i)) = decide (i + 1 < n)) ∧
        (∀ i < n, ∀ j < 7, (m.read (s.ports.base + i)).getLsbD j =
          (decide (7 * (n - 1 - i) + 7 ≤ w.bits + j) &&
            (s.ports.value.get w).getLsbD (w.bits + j - (7 * (n - 1 - i) + 7)))) ∧
        ∀ a, ¬ (s.ports.base ≤ a ∧ a < s.ports.base + n) → m.read a = s.mem.read a

/-- ENC.R.32, ENC.R.64, ENC.R.128 have select code `width` 1 01 and complete. With too little capacity nothing changes but the results. Otherwise the byte at
index i carries group k = n-1-i of R63, bit j of its data being bit 7k+j of the value, its continuation bit set unless it
is the last; every address outside the n stored bytes reads as before. -/
def Obligations.EncodeRightWritesTheGroupsOfTheValue : Prop :=
  ∀ (w : Width) (s : State), (Instr.ofFields .enc .right w).wf s.cfg = true →
    decode s.cfg (w.code ++ 0b1#1 ++ 0b01#2) = .ok (Instr.ofFields .enc .right w) ∧
    (s.ports.cap < encodedSize .right w.bits (s.ports.value.get w) →
      exec (Instr.ofFields .enc .right w) s =
        .next { s with results := ⟨some 0, ⟨none, none, none⟩, none, some .insufficientCapacity⟩, accesses := [] }) ∧
    ∀ n, n = encodedSize .right w.bits (s.ports.value.get w) → n ≤ s.ports.cap →
      ∃ m : Memory, exec (Instr.ofFields .enc .right w) s =
          .next { s with
            mem := m
            results := ⟨some n, ⟨none, none, none⟩, none, some .ok⟩
            accesses := (List.range n).map (fun i => .write i (m.read (s.ports.base + i))) } ∧
        (∀ i < n, continues (m.read (s.ports.base + i)) = decide (i + 1 < n)) ∧
        (∀ i < n, ∀ j < 7, (m.read (s.ports.base + i)).getLsbD j =
          (s.ports.value.get w).getLsbD (7 * (n - 1 - i) + j)) ∧
        ∀ a, ¬ (s.ports.base ≤ a ∧ a < s.ports.base + n) → m.read a = s.mem.read a

/-- ENC fails exactly when the capacity is below the size; no capacity always fails, NMAX bytes never do. -/
def Obligations.EncodeFailsExactlyBelowTheSize : Prop :=
  ∀ (o : Orient) (w : Width) (s t : State), (Instr.ofFields .enc o w).wf s.cfg = true →
    exec (Instr.ofFields .enc o w) s = .next t →
    (t.results.count = some 0 ↔ s.ports.cap < encodedSize o w.bits (s.ports.value.get w)) ∧
    (t.results.status = some .insufficientCapacity ↔ s.ports.cap < encodedSize o w.bits (s.ports.value.get w)) ∧
    (encodedSize o w.bits (s.ports.value.get w) ≤ s.ports.cap →
      t.results.count = some (encodedSize o w.bits (s.ports.value.get w)) ∧ t.results.status = some .ok) ∧
    (s.ports.cap = 0 → t.results.count = some 0) ∧
    (maxBytes w.bits ≤ s.ports.cap → t.results.status = some .ok)

/-- A failed ENC reports INSUFFICIENT_CAPACITY and changes no byte, and the same ENC with a buffer of at least the size then
succeeds. -/
def Obligations.FailedEncodeSucceedsWithALargerBuffer : Prop :=
  ∀ (o : Orient) (w : Width) (s : State) (cap' : Nat), (Instr.ofFields .enc o w).wf s.cfg = true →
    s.ports.cap < encodedSize o w.bits (s.ports.value.get w) → encodedSize o w.bits (s.ports.value.get w) ≤ cap' →
    ∃ t u, exec (Instr.ofFields .enc o w) s = .next t ∧ t.results.count = some 0 ∧
      t.results.status = some .insufficientCapacity ∧ (∀ a, t.mem.read a = s.mem.read a) ∧
      exec (Instr.ofFields .enc o w) (t.present { t.ports with cap := cap' }) = .next u ∧
      u.results.status = some .ok ∧ u.results.count = some (encodedSize o w.bits (s.ports.value.get w))

/-- Every byte of an encoding but the last has its continuation bit set, the last has it clear, and there are `size` bytes. -/
def Obligations.EncodingMarksItsLastByte : Prop :=
  ∀ (o : Orient) (w : Width) (v : BitVec w.bits),
    (encodingOf o w.bits v).length = encodedSize o w.bits v ∧
    ∀ i < (encodingOf o w.bits v).length,
      continues ((encodingOf o w.bits v).getD i 0) = decide (i + 1 < (encodingOf o w.bits v).length)

/-- In an encoding of two bytes or more the first byte's data field is not zero: it is the highest-numbered group of the
value that is not zero. Groups are numbered from the lowest bits up in orientation R and from the highest bits down in
orientation L. -/
def Obligations.EncodingBeginsWithANonzeroGroup : Prop :=
  ∀ (o : Orient) (w : Width) (v : BitVec w.bits) (n : Nat), n = (encodingOf o w.bits v).length → 2 ≤ n →
    dataBits ((encodingOf o w.bits v).getD 0 0) ≠ 0 ∧
    dataBits ((encodingOf o w.bits v).getD 0 0) = groupOf o w.bits v (n - 1) ∧
    ∀ j, n ≤ j → groupOf o w.bits v j = 0

/-- An encoding has NMAX bytes exactly when the partial group is not zero: a value from 2^(7G) on in orientation R, a bit
set below E in orientation L. Its first byte then has its continuation bit set and carries the partial group:
right-aligned, at least 1 and below 2^E in R; a non-zero multiple of 2^PAD in L. -/
def Obligations.LongestEncodingBeginsWithThePartialGroup : Prop :=
  ∀ (o : Orient) (w : Width) (v : BitVec w.bits),
    (encodingOf o w.bits v).length ≤ maxBytes w.bits ∧
    ((encodingOf o w.bits v).length = maxBytes w.bits ↔ groupOf o w.bits v (groupCount w.bits) ≠ 0) ∧
    (o = .right → (groupOf o w.bits v (groupCount w.bits) ≠ 0 ↔ 2 ^ (7 * groupCount w.bits) ≤ v.toNat)) ∧
    (o = .left → (groupOf o w.bits v (groupCount w.bits) ≠ 0 ↔ v.toNat % 2 ^ extraBits w.bits ≠ 0)) ∧
    ((encodingOf o w.bits v).length = maxBytes w.bits →
      continues ((encodingOf o w.bits v).getD 0 0) = true ∧
      dataBits ((encodingOf o w.bits v).getD 0 0) = groupOf o w.bits v (groupCount w.bits) ∧
      (o = .right → 1 ≤ (dataBits ((encodingOf o w.bits v).getD 0 0)).toNat ∧
        (dataBits ((encodingOf o w.bits v).getD 0 0)).toNat < 2 ^ extraBits w.bits) ∧
      (o = .left → (dataBits ((encodingOf o w.bits v).getD 0 0)).toNat ≠ 0 ∧
        2 ^ padBits w.bits ∣ (dataBits ((encodingOf o w.bits v).getD 0 0)).toNat))

/-- The scan procedure writes the same bytes as the size-first procedure, in both orientations. -/
def Obligations.ScanFormWritesTheSameBytes : Prop :=
  ∀ (o : Orient) (w : Width) (v : BitVec w.bits), scanEncoding o w.bits v = encodingOf o w.bits v

/-- Value 0: size 1, the single byte 00, and back. -/
def Obligations.ZeroIsOneZeroByte : Prop :=
  ∀ (o : Orient) (w : Width), encodedSize o w.bits 0 = 1 ∧ encodingOf o w.bits 0 = [0x00] ∧
    (decodeSeq o w.bits 0 [0x00]).acc = 0 ∧ (decodeSeq o w.bits 0 [0x00]).count = 1 ∧
    (decodeSeq o w.bits 0 [0x00]).term = true

/-- Encodings across widths: right-grouped bytes do not depend on the width, left-grouped bytes are those of the value moved
to the top of the wider word, and the wider decoder returns accordingly. -/
def Obligations.EncodingsAcrossWidths : Prop :=
  ∀ (w1 w2 : Width) (v : BitVec w1.bits), w1.bits ≤ w2.bits →
    encodingOf .right w2.bits (v.setWidth w2.bits) = encodingOf .right w1.bits v ∧
    (decodeSeq .right w2.bits 0 (encodingOf .right w1.bits v)).acc = v.setWidth w2.bits ∧
    encodingOf .left w2.bits (v.setWidth w2.bits <<< (w2.bits - w1.bits)) = encodingOf .left w1.bits v ∧
    (decodeSeq .left w2.bits 0 (encodingOf .left w1.bits v)).acc = v.setWidth w2.bits <<< (w2.bits - w1.bits)

/-! ### DEC -/

/-- DEC.L.32, DEC.L.64, DEC.L.128 have select code `width` 0 10 and complete, whatever the bytes. With the first terminator at index k they consume k+1 bytes;
with none they consume all `len`; each byte b takes the accumulator to shr(acc, 7) | b[6:0] * 2^(W-7). Nothing but the
result ports and the record of the reads changes. -/
def Obligations.DecodeLeftFoldsBytesToTheTerminator : Prop :=
  ∀ (w : Width) (s : State), (Instr.ofFields .dec .left w).wf s.cfg = true →
    decode s.cfg (w.code ++ 0b0#1 ++ 0b10#2) = .ok (Instr.ofFields .dec .left w) ∧
    (∀ k, TerminatesAt s.bufferByte s.ports.len k →
      exec (Instr.ofFields .dec .left w) s = .next { s with
        results := ⟨some (k + 1), AccLanes.of w (((List.range (k + 1)).map s.bufferByte).foldl
          (fun (acc : BitVec w.bits) (b : Byte) => (acc >>> 7) ||| ((b &&& 0x7F).setWidth w.bits <<< (w.bits - 7))) (s.ports.accIn.get w)),
          some true, some .ok⟩
        accesses := (List.range (k + 1)).map Access.read }) ∧
    (Unterminated s.bufferByte s.ports.len →
      exec (Instr.ofFields .dec .left w) s = .next { s with
        results := ⟨some s.ports.len, AccLanes.of w (((List.range s.ports.len).map s.bufferByte).foldl
          (fun (acc : BitVec w.bits) (b : Byte) => (acc >>> 7) ||| ((b &&& 0x7F).setWidth w.bits <<< (w.bits - 7))) (s.ports.accIn.get w)),
          some false, some .incomplete⟩
        accesses := (List.range s.ports.len).map Access.read })

/-- DEC.R.32, DEC.R.64, DEC.R.128 have select code `width` 1 10 and complete, whatever the bytes. With the first terminator at index k they consume k+1 bytes;
with none they consume all `len`; each byte b takes the accumulator to shl_W(acc, 7) | b[6:0]. Nothing but the result
ports and the record of the reads changes. -/
def Obligations.DecodeRightFoldsBytesToTheTerminator : Prop :=
  ∀ (w : Width) (s : State), (Instr.ofFields .dec .right w).wf s.cfg = true →
    decode s.cfg (w.code ++ 0b1#1 ++ 0b10#2) = .ok (Instr.ofFields .dec .right w) ∧
    (∀ k, TerminatesAt s.bufferByte s.ports.len k →
      exec (Instr.ofFields .dec .right w) s = .next { s with
        results := ⟨some (k + 1), AccLanes.of w (((List.range (k + 1)).map s.bufferByte).foldl
          (fun (acc : BitVec w.bits) (b : Byte) => (acc <<< 7) ||| (b &&& 0x7F).setWidth w.bits) (s.ports.accIn.get w)),
          some true, some .ok⟩
        accesses := (List.range (k + 1)).map Access.read }) ∧
    (Unterminated s.bufferByte s.ports.len →
      exec (Instr.ofFields .dec .right w) s = .next { s with
        results := ⟨some s.ports.len, AccLanes.of w (((List.range s.ports.len).map s.bufferByte).foldl
          (fun (acc : BitVec w.bits) (b : Byte) => (acc <<< 7) ||| (b &&& 0x7F).setWidth w.bits) (s.ports.accIn.get w)),
          some false, some .incomplete⟩
        accesses := (List.range s.ports.len).map Access.read })

/-- The left-grouped accumulator after c bytes, in closed form: what is left of the old one, and each byte's data in its
place. -/
def Obligations.DecodeLeftAccumulatorInClosedForm : Prop :=
  ∀ (w : Width) (s t : State) (c : Nat), (Instr.ofFields .dec .left w).wf s.cfg = true →
    exec (Instr.ofFields .dec .left w) s = .next t → t.results.count = some c →
    t.results.accOut.get w = some (closedL w.bits (s.ports.accIn.get w) s.bufferByte c)

/-- The right-grouped accumulator after c bytes, in closed form: a sum modulo 2^W. -/
def Obligations.DecodeRightAccumulatorInClosedForm : Prop :=
  ∀ (w : Width) (s t : State) (c : Nat), (Instr.ofFields .dec .right w).wf s.cfg = true →
    exec (Instr.ofFields .dec .right w) s = .next t → t.results.count = some c →
    t.results.accOut.get w = some (BitVec.ofNat w.bits (closedR w.bits (s.ports.accIn.get w) s.bufferByte c))

/-- The single-integer form of a DEC result is positive exactly on success, minus the whole length on incomplete, and zero
only for `len = 0`. -/
def Obligations.SignedCountTellsTheThreeCases : Prop :=
  ∀ (o : Orient) (w : Width) (s t : State), (Instr.ofFields .dec o w).wf s.cfg = true →
    exec (Instr.ofFields .dec o w) s = .next t →
    ∃ c b, t.results.count = some c ∧ t.results.term = some b ∧
      (b = true → signedCount c b = (c : Int) ∧ 0 < signedCount c b) ∧
      (b = false → signedCount c b = -(s.ports.len : Int)) ∧
      (signedCount c b = 0 ↔ s.ports.len = 0)

/-- Decoding in two pieces, the accumulator handed over, is decoding in one: for any bytes, any accumulator and any second
piece, when the first k bytes hold no terminator. -/
def Obligations.DecodeResumesAcrossBuffers : Prop :=
  ∀ (o : Orient) (w : Width) (s : State) (k m : Nat), (Instr.ofFields .dec o w).wf s.cfg = true →
    (∀ j < k, continues (s.bufferByte j) = true) →
    ∃ t1 t2 t, exec (Instr.ofFields .dec o w) (s.present { s.ports with len := k }) = .next t1 ∧
      t1.results.status = some .incomplete ∧ t1.results.count = some k ∧
      exec (Instr.ofFields .dec o w)
        (t1.present (t1.ports.resume t1.results (s.ports.base + k) m)) = .next t2 ∧
      exec (Instr.ofFields .dec o w) (s.present { s.ports with len := k + m }) = .next t ∧
      t.results.accOut = t2.results.accOut ∧ t.results.term = t2.results.term ∧ t.results.status = t2.results.status ∧
      ∃ c, t2.results.count = some c ∧ t.results.count = some (k + c)

/-- An encoding cut anywhere before its end decodes, piece by piece, to its value. -/
def Obligations.SplitEncodingDecodesToTheValue : Prop :=
  ∀ (o : Orient) (w : Width) (v : BitVec w.bits) (k : Nat), k < (encodingOf o w.bits v).length →
    (decodeSeq o w.bits 0 ((encodingOf o w.bits v).take k)).count = k ∧
    (decodeSeq o w.bits 0 ((encodingOf o w.bits v).take k)).term = false ∧
    ∀ a, a = (decodeSeq o w.bits 0 ((encodingOf o w.bits v).take k)).acc →
      (decodeSeq o w.bits a ((encodingOf o w.bits v).drop k)).acc = v ∧
      (decodeSeq o w.bits a ((encodingOf o w.bits v).drop k)).count = (encodingOf o w.bits v).length - k ∧
      (decodeSeq o w.bits a ((encodingOf o w.bits v).drop k)).term = true

/-! ### The operations together -/

/-- ENC then DEC of the same buffer from a zero accumulator gives the value back, and consumes exactly the bytes written,
whatever bytes follow; it reads those bytes and no others. -/
def Obligations.DecodeOfEncodedValueIsTheValue : Prop :=
  ∀ (o : Orient) (w : Width) (s : State) (len : Nat), (Instr.ofFields .enc o w).wf s.cfg = true →
    encodedSize o w.bits (s.ports.value.get w) ≤ s.ports.cap → encodedSize o w.bits (s.ports.value.get w) ≤ len →
    ∃ t u, exec (Instr.ofFields .enc o w) s = .next t ∧
      t.results.count = some (encodedSize o w.bits (s.ports.value.get w)) ∧
      exec (Instr.ofFields .dec o w) (t.present { t.ports with accIn := zeroLanes, len := len }) = .next u ∧
      u.results = ⟨some (encodedSize o w.bits (s.ports.value.get w)), AccLanes.of w (s.ports.value.get w), some true,
        some .ok⟩ ∧
      u.accesses = (List.range (encodedSize o w.bits (s.ports.value.get w))).map Access.read

/-- Two values written back to back, the second where the first ended, are read back one after the other. -/
def Obligations.BackToBackValuesAreReadBack : Prop :=
  ∀ (o : Orient) (w : Width) (s : State) (second : Lanes) (len : Nat), (Instr.ofFields .enc o w).wf s.cfg = true →
    encodedSize o w.bits (s.ports.value.get w) + encodedSize o w.bits (second.get w) ≤ s.ports.cap →
    encodedSize o w.bits (s.ports.value.get w) + encodedSize o w.bits (second.get w) ≤ len →
    ∃ t1 t2 u1 u2, exec (Instr.ofFields .enc o w) s = .next t1 ∧
      exec (Instr.ofFields .enc o w) (t1.present { t1.ports.following t1.results with value := second }) = .next t2 ∧
      t2.results.status = some .ok ∧
      exec (Instr.ofFields .dec o w) (t2.present { s.ports with accIn := zeroLanes, len := len }) = .next u1 ∧
      u1.results.accOut = AccLanes.of w (s.ports.value.get w) ∧ u1.results.term = some true ∧
      exec (Instr.ofFields .dec o w) (u1.present (u1.ports.following u1.results)) = .next u2 ∧
      u2.results.accOut = AccLanes.of w (second.get w) ∧ u2.results.term = some true

/-- With room enough ENC returns the size, and no sequence shorter than the size decodes to the value. -/
def Obligations.EncodeAgreesWithSizeAndIsMinimal : Prop :=
  ∀ (o : Orient) (w : Width),
    (∀ s : State, (Instr.ofFields .enc o w).wf s.cfg = true →
      encodedSize o w.bits (s.ports.value.get w) ≤ s.ports.cap →
      ∃ t, exec (Instr.ofFields .enc o w) s = .next t ∧
        t.results.count = some (encodedSize o w.bits (s.ports.value.get w))) ∧
    ∀ (v : BitVec w.bits) (S : List Byte), (decodeSeq o w.bits 0 S).acc = v →
      (decodeSeq o w.bits 0 S).count = S.length → (decodeSeq o w.bits 0 S).term = true →
      encodedSize o w.bits v ≤ S.length

/-- Different values have different encodings. The decoders are not injective: two different byte sequences, each
terminated and consumed whole, decode to one value. -/
def Obligations.DifferentValuesHaveDifferentEncodings : Prop :=
  ∀ (o : Orient) (w : Width),
    (∀ v v' : BitVec w.bits, encodingOf o w.bits v = encodingOf o w.bits v' → v = v') ∧
    ∃ S S' : List Byte, S ≠ S' ∧ (decodeSeq o w.bits 0 S).acc = (decodeSeq o w.bits 0 S').acc ∧
      (decodeSeq o w.bits 0 S).count = S.length ∧ (decodeSeq o w.bits 0 S).term = true ∧
      (decodeSeq o w.bits 0 S').count = S'.length ∧ (decodeSeq o w.bits 0 S').term = true

/-- No encoding is a proper prefix of another. -/
def Obligations.NoEncodingIsAProperPrefixOfAnother : Prop :=
  ∀ (o : Orient) (w : Width) (v v' : BitVec w.bits), encodingOf o w.bits v <+: encodingOf o w.bits v' →
    encodingOf o w.bits v = encodingOf o w.bits v'

/-- What every operation leaves unchanged: the parameters, the requests waiting, the operands, and every byte of memory but
the `count` bytes an ENC stores at its buffer's start. -/
def Obligations.OperationsChangeOnlyTheBytesTheyStore : Prop :=
  ∀ (i : Instr) (s t : State), exec i s = .next t →
    t.cfg = s.cfg ∧ t.issued = s.issued ∧ t.ports = s.ports ∧
    (i.func ≠ .enc → ∀ a, t.mem.read a = s.mem.read a) ∧
    (∀ n, t.results.count = some n → ∀ a, ¬ (s.ports.base ≤ a ∧ a < s.ports.base + n) →
      t.mem.read a = s.mem.read a)

/-- Which buffer bytes an operation accesses: SIZE none, ENC writes and DEC reads each index below `count` once, ascending,
and no index at or beyond `cap` or `len`. -/
def Obligations.BufferAccessesAreTheFirstCountIndices : Prop :=
  ∀ (i : Instr) (s t : State), exec i s = .next t →
    (i.func = .size → t.accesses = []) ∧
    (∀ n, t.results.count = some n → i.func ≠ .size → t.accesses.map Access.index = List.range n) ∧
    (∀ a ∈ t.accesses, a.isRead = decide (i.func = .dec)) ∧
    ∀ a ∈ t.accesses, (if a.isRead then a.index < s.ports.len else a.index < s.ports.cap)

/-- Results depend only on the build, the operands and, for DEC, the `count` bytes it reads: two states that agree on those
give the same result ports, the same accesses, and from ENC the same `count` bytes in the buffer, whatever happened before. -/
def Obligations.ResultsDependOnlyOnOperandsAndBytesRead : Prop :=
  ∀ (i : Instr) (s s' t : State), s'.cfg = s.cfg → s'.ports = s.ports → exec i s = .next t →
    (i.func = .dec → ∀ n, t.results.count = some n → ∀ j < n, s'.bufferByte j = s.bufferByte j) →
    ∃ t', exec i s' = .next t' ∧ t'.results = t.results ∧ t'.accesses = t.accesses ∧
      (i.func = .enc → ∀ n, t.results.count = some n → ∀ j < n, t'.bufferByte j = t.bufferByte j)

/-- `status` holds the code that R185 gives as a function of the other results, for each function of an operation the build
has, and for a reserved code performed by a step. -/
def Obligations.StatusFollowsTheOtherResults : Prop :=
  (∀ (i : Instr) (s : State), i.wf s.cfg = true → ∃ (t : State) (st : Status), exec i s = .next t ∧
    t.results.status = some st ∧
    (i.func = .size → st.code = 0#2) ∧
    (i.func = .enc → ∃ n, t.results.count = some n ∧ (1 ≤ n → st.code = 0#2) ∧ (n = 0 → st.code = 1#2)) ∧
    (i.func = .dec → ∃ b, t.results.term = some b ∧ (b = true → st.code = 0#2) ∧ (b = false → st.code = 2#2))) ∧
  ∀ (s : State) (r : Request) (rest : List Request) (e : DecodeError), s.issued = r :: rest →
    decode s.cfg r.op = .error e → ∃ (t : State) (st : Status), step s = .next t ∧ t.results.status = some st ∧
      st.code = 3#2

/-- No count is larger than the capacity or length given, or than NMAX: the width LENW of the ports cannot matter. -/
def Obligations.CountsStayWithinTheirBounds : Prop :=
  ∀ (i : Instr) (s t : State) (n : Nat), exec i s = .next t → t.results.count = some n →
    (i.func = .size → n ≤ maxBytes i.width.bits) ∧
    (i.func = .enc → n ≤ s.ports.cap ∧ n ≤ maxBytes i.width.bits) ∧
    (i.func = .dec → n ≤ s.ports.len)

/-- Two requests on disjoint buffers can be performed in either order: each gives the same results and accesses, and memory
ends with the same bytes. -/
def Obligations.DisjointRequestsCommute : Prop :=
  ∀ (s : State) (p q : Request), Request.Disjoint s.cfg p q →
    ∃ s1 s2 u1 u2, step { s with issued := [p, q] } = .next s1 ∧ step s1 = .next s2 ∧
      step { s with issued := [q, p] } = .next u1 ∧ step u1 = .next u2 ∧
      s1.results = u2.results ∧ s1.accesses = u2.accesses ∧ s2.results = u1.results ∧ s2.accesses = u1.accesses ∧
      ∀ a, s2.mem.read a = u2.mem.read a

/-! ### The invariant -/

/-- Every step keeps the invariant: memory in canonical form, results that belong together, accesses inside the buffer. -/
def Obligations.EveryStepKeepsTheInvariant : Prop :=
  ∀ s t : State, s.Inv → step s = .next t → t.Inv

/-- Reset has the invariant, in every build. -/
def Obligations.InvariantHoldsAtReset : Prop :=
  ∀ c : Config, (State.resetWith c).Inv
end

