-- ==== Sys2Proof/Laws/State.lean ====
section
/-! SUPPORT. One lemma per field per update of the state, true by `rfl`. -/

namespace Sys2Proof.Machine

@[simp] theorem State.finish_cfg (s : State) (r : Results) (l : List Access) : (s.finish r l).cfg = s.cfg := rfl
@[simp] theorem State.finish_issued (s : State) (r : Results) (l : List Access) : (s.finish r l).issued = s.issued := rfl
@[simp] theorem State.finish_ports (s : State) (r : Results) (l : List Access) : (s.finish r l).ports = s.ports := rfl
@[simp] theorem State.finish_mem (s : State) (r : Results) (l : List Access) : (s.finish r l).mem = s.mem := rfl
@[simp] theorem State.finish_results (s : State) (r : Results) (l : List Access) : (s.finish r l).results = r := rfl
@[simp] theorem State.finish_accesses (s : State) (r : Results) (l : List Access) : (s.finish r l).accesses = l := rfl

@[simp] theorem State.accept_cfg (s : State) (r : Request) (rest : List Request) : (s.accept r rest).cfg = s.cfg := rfl
@[simp] theorem State.accept_issued (s : State) (r : Request) (rest : List Request) : (s.accept r rest).issued = rest := rfl
@[simp] theorem State.accept_ports (s : State) (r : Request) (rest : List Request) : (s.accept r rest).ports = r := rfl
@[simp] theorem State.accept_mem (s : State) (r : Request) (rest : List Request) : (s.accept r rest).mem = s.mem := rfl
@[simp] theorem State.accept_results (s : State) (r : Request) (rest : List Request) : (s.accept r rest).results = s.results := rfl
@[simp] theorem State.accept_accesses (s : State) (r : Request) (rest : List Request) : (s.accept r rest).accesses = s.accesses := rfl

@[simp] theorem State.present_cfg (s : State) (r : Request) : (s.present r).cfg = s.cfg := rfl
@[simp] theorem State.present_issued (s : State) (r : Request) : (s.present r).issued = s.issued := rfl
@[simp] theorem State.present_ports (s : State) (r : Request) : (s.present r).ports = r := rfl
@[simp] theorem State.present_mem (s : State) (r : Request) : (s.present r).mem = s.mem := rfl
@[simp] theorem State.present_results (s : State) (r : Request) : (s.present r).results = s.results := rfl
@[simp] theorem State.present_accesses (s : State) (r : Request) : (s.present r).accesses = s.accesses := rfl

@[simp] theorem State.issue_cfg (s : State) (r : Request) : (s.issue r).cfg = s.cfg := rfl
@[simp] theorem State.issue_issued (s : State) (r : Request) : (s.issue r).issued = s.issued ++ [r] := rfl
@[simp] theorem State.issue_ports (s : State) (r : Request) : (s.issue r).ports = s.ports := rfl
@[simp] theorem State.issue_mem (s : State) (r : Request) : (s.issue r).mem = s.mem := rfl
@[simp] theorem State.issue_results (s : State) (r : Request) : (s.issue r).results = s.results := rfl
@[simp] theorem State.issue_accesses (s : State) (r : Request) : (s.issue r).accesses = s.accesses := rfl

@[simp] theorem State.applyReset_cfg (s : State) : (s.applyReset).cfg = s.cfg := rfl
@[simp] theorem State.applyReset_issued (s : State) : (s.applyReset).issued = s.issued := rfl
@[simp] theorem State.applyReset_ports (s : State) : (s.applyReset).ports = s.ports := rfl
@[simp] theorem State.applyReset_mem (s : State) : (s.applyReset).mem = s.mem := rfl
@[simp] theorem State.applyReset_results (s : State) : (s.applyReset).results = Results.undriven := rfl
@[simp] theorem State.applyReset_accesses (s : State) : (s.applyReset).accesses = [] := rfl

@[simp] theorem State.sized_eq_finish (s : State) (n : Nat) :
    s.sized n = s.finish ⟨some n, AccLanes.absent, none, some .ok⟩ [] := rfl

@[simp] theorem State.decoded_eq_finish {W : Nat} (s : State) (lane : BitVec W → AccLanes) (r : DecodeRun W) :
    s.decoded lane r = s.finish ⟨some r.count, lane r.acc, some r.term, some (statusOfTerm r.term)⟩ r.accesses := rfl

@[simp] theorem State.illegalOp_eq_finish (s : State) :
    s.illegalOp = s.finish ⟨some 0, AccLanes.ofLanes s.ports.accIn, some false, some .illegalOp⟩ [] := rfl

theorem State.kept_finish (s : State) (r : Results) (l : List Access) : s.Kept (s.finish r l) := ⟨rfl, rfl, rfl⟩

end Sys2Proof.Machine
end

