-- ==== Sys2Proof/Laws/Memory.lean ====
section
/-! SUPPORT. Memory: a read after a write, the canonical form kept by every write, and what a run of stores does. -/

namespace Sys2Proof.Machine

/-! ### One byte -/

@[simp] theorem Memory.read_nil (a : Nat) : Memory.read [] a = unlistedByte := rfl

theorem Memory.read_erase (m : Memory) (a c : Nat) :
    Memory.read (Memory.erase m a) c = if c = a then unlistedByte else m.read c := by
  induction m with
  | nil => simp [Memory.erase]
  | cons x m ih =>
    obtain ⟨xa, xb⟩ := x
    unfold Memory.erase at ih ⊢
    by_cases hx : xa = a
    · simp only [hx, ne_eq, not_true_eq_false, decide_false, Bool.false_eq_true, not_false_eq_true,
        List.filter_cons_of_neg, ih, Memory.read]
      by_cases hc : c = a
      · simp [hc]
      · simp [hc, Ne.symm hc]
    · simp only [ne_eq, hx, not_false_eq_true, decide_true, List.filter_cons_of_pos, Memory.read, ih]
      split <;> simp_all

theorem Memory.read_insert (m : Memory) (a : Nat) (b : Byte) (c : Nat) (h : ∀ x ∈ m, x.1 ≠ a) :
    Memory.read (Memory.insert a b m) c = if c = a then b else m.read c := by
  induction m with
  | nil => simp [Memory.insert, Memory.read, eq_comm]
  | cons x m ih =>
    obtain ⟨xa, xb⟩ := x
    have hx : xa ≠ a := h (xa, xb) (by simp)
    have ih := ih (fun y hy => h y (List.mem_cons_of_mem _ hy))
    by_cases hlt : a < xa
    · simp [Memory.insert, hlt, Memory.read, eq_comm]
    · simp only [Memory.insert, hlt, if_false, Memory.read, ih]
      split <;> simp_all

/-- "returns the byte last stored at that index" (R52), on any memory, canonical or not. -/
theorem Memory.read_write (m : Memory) (a : Nat) (b : Byte) (c : Nat) :
    Memory.read (Memory.write m a b) c = if c = a then b else m.read c := by
  unfold Memory.write
  by_cases hb : b = unlistedByte
  · simp [hb, Memory.read_erase]
  · rw [if_neg hb, Memory.read_insert _ _ _ _ (by simp [Memory.erase]), Memory.read_erase]
    split <;> rfl

@[simp] theorem Memory.read_write_same (m : Memory) (a : Nat) (b : Byte) : Memory.read (Memory.write m a b) a = b := by
  simp [Memory.read_write]

theorem Memory.read_write_other (m : Memory) (a : Nat) (b : Byte) {c : Nat} (h : c ≠ a) :
    Memory.read (Memory.write m a b) c = m.read c := by
  simp [Memory.read_write, h]

/-! ### The canonical form -/

theorem Memory.wf_cons (c : Host.Cell) (m : Memory) :
    Memory.wf (c :: m) = true ↔ c.2 ≠ unlistedByte ∧ (∀ d ∈ m, c.1 < d.1) ∧ Memory.wf m = true := by
  simp [Memory.wf, and_assoc]

theorem Memory.wf_erase {m : Memory} (a : Nat) (h : m.wf = true) : Memory.wf (m.erase a) = true := by
  induction m with
  | nil => rfl
  | cons x m ih =>
    obtain ⟨hx, hlt, hm⟩ := (Memory.wf_cons x m).1 h
    have ih := ih hm
    unfold Memory.erase at ih ⊢
    by_cases hxa : x.1 = a
    · simpa [hxa] using ih
    · rw [List.filter_cons_of_pos (by simpa using hxa)]
      exact (Memory.wf_cons x _).2 ⟨hx, fun d hd => hlt d (List.mem_filter.1 hd).1, ih⟩

theorem Memory.mem_insert {m : Memory} {a : Nat} {b : Byte} {c : Host.Cell} :
    c ∈ Memory.insert a b m ↔ c = (a, b) ∨ c ∈ m := by
  induction m with
  | nil => simp [Memory.insert]
  | cons x m ih =>
    unfold Memory.insert
    split
    · simp
    · simp only [List.mem_cons, ih]
      tauto

theorem Memory.wf_insert {m : Memory} {a : Nat} {b : Byte} (hb : b ≠ unlistedByte) (ha : ∀ x ∈ m, x.1 ≠ a)
    (h : m.wf = true) : Memory.wf (Memory.insert a b m) = true := by
  induction m with
  | nil => simp [Memory.insert, Memory.wf, hb]
  | cons x m ih =>
    obtain ⟨hx, hlt, hm⟩ := (Memory.wf_cons x m).1 h
    have hxa : x.1 ≠ a := ha x (by simp)
    unfold Memory.insert
    split
    case isTrue hax =>
      refine (Memory.wf_cons _ _).2 ⟨hb, fun d hd => ?_, h⟩
      rcases List.mem_cons.1 hd with rfl | hd
      · exact hax
      · exact Nat.lt_trans hax (hlt d hd)
    case isFalse hax =>
      refine (Memory.wf_cons _ _).2 ⟨hx, fun d hd => ?_, ih (fun y hy => ha y (List.mem_cons_of_mem _ hy)) hm⟩
      rcases Memory.mem_insert.1 hd with rfl | hd
      · show x.1 < a
        omega
      · exact hlt d hd

/-- Every write keeps the canonical form. -/
theorem Memory.wf_write {m : Memory} (a : Nat) (b : Byte) (h : m.wf = true) : Memory.wf (m.write a b) = true := by
  unfold Memory.write
  split
  · exact Memory.wf_erase a h
  · exact Memory.wf_insert ‹_› (by simp [Memory.erase]) (Memory.wf_erase a h)

/-! ### A run of stores -/

/-- What `storeBytes` does to memory: the bytes stand at ascending indices, every other address keeps its byte. -/
theorem storeBytes_read (base : Nat) (bytes : List Byte) (m : Memory) (i a : Nat) :
    Memory.read (storeBytes base m i bytes).mem a =
      if base + i ≤ a ∧ a < base + i + bytes.length then bytes.getD (a - (base + i)) 0 else m.read a := by
  induction bytes generalizing m i with
  | nil =>
    have : ¬ (base + i ≤ a ∧ a < base + i + ([] : List Byte).length) := by simp
    simp only [storeBytes, this, if_false]
  | cons b bytes ih =>
    simp only [storeBytes, ih, List.length_cons]
    by_cases h : a = base + i
    · subst h
      simp
    · rw [Memory.read_write_other _ _ _ h]
      by_cases h1 : base + (i + 1) ≤ a ∧ a < base + (i + 1) + bytes.length
      · have h2 : base + i ≤ a ∧ a < base + i + (bytes.length + 1) := by omega
        have h3 : a - (base + i) = (a - (base + (i + 1))) + 1 := by omega
        simp [h1, h2, h3]
      · have h2 : ¬ (base + i ≤ a ∧ a < base + i + (bytes.length + 1)) := by omega
        simp only [h1, h2, if_false]

theorem storeBytes_wf (base : Nat) (bytes : List Byte) {m : Memory} (i : Nat) (h : m.wf = true) :
    Memory.wf (storeBytes base m i bytes).mem = true := by
  induction bytes generalizing m i with
  | nil => exact h
  | cons b bytes ih => exact ih (i + 1) (Memory.wf_write _ _ h)

/-- Each byte is written once, at ascending indices (R45). -/
theorem storeBytes_accesses (base : Nat) (bytes : List Byte) (m : Memory) (i : Nat) :
    (storeBytes base m i bytes).accesses =
      (List.range bytes.length).map (fun j => Access.write (i + j) (bytes.getD j 0)) := by
  induction bytes generalizing m i with
  | nil => rfl
  | cons b bytes ih =>
    simp only [storeBytes, ih, List.length_cons, List.range_succ_eq_map, List.map_cons, List.map_map]
    congr 1
    apply List.map_congr_left
    intro j _
    simp [Nat.add_comm, Nat.add_left_comm]

end Sys2Proof.Machine
end

