-- ==== Sys2Proof/Laws/Codec.lean ====
section
/-! SUPPORT. The loops of the codec: where a size count ends, the bytes an encoder emits, and where a decode ends. -/

namespace Sys2Proof.Machine

/-! ### Size -/

/-- The count of shifts, for a shift whose j-fold iterate is known: it is `n` when the first n iterates are non-zero
and the n-th is zero. -/
theorem shiftsToZero_eq {W : Nat} (shift : BitVec W → BitVec W) (n fuel : Nat) (t : BitVec W) (hn : n ≤ fuel)
    (hnz : ∀ j < n, shift^[j] t ≠ 0) (hz : shift^[n] t = 0) : shiftsToZero shift fuel t = n := by
  induction n generalizing fuel t with
  | zero =>
    have : t = 0 := hz
    cases fuel <;> simp [shiftsToZero, this]
  | succ n ih =>
    obtain ⟨fuel, rfl⟩ : ∃ f, fuel = f + 1 := ⟨fuel - 1, by omega⟩
    have h0 : t ≠ 0 := hnz 0 (by omega)
    rw [shiftsToZero, if_neg h0, ih fuel (shift t) (by omega)]
    · intro j hj
      exact hnz (j + 1) (by omega)
    · exact hz

theorem shiftLeft_iterate {W : Nat} (t : BitVec W) (j : Nat) : (fun x : BitVec W => x <<< 7)^[j] t = t <<< (7 * j) := by
  induction j generalizing t with
  | zero => simp
  | succ j ih => rw [Function.iterate_succ_apply, ih, ← BitVec.shiftLeft_add]; congr 1; omega

theorem shiftRight_iterate {W : Nat} (t : BitVec W) (j : Nat) : (fun x : BitVec W => x >>> 7)^[j] t = t >>> (7 * j) := by
  induction j generalizing t with
  | zero => simp
  | succ j ih => rw [Function.iterate_succ_apply, ih, ← BitVec.shiftRight_add]; congr 1; omega

/-! ### Emitted bytes -/

@[simp] theorem emitGroups_length (group : Nat → Byte) (n : Nat) : (emitGroups group n).length = n := by
  induction n with
  | zero => rfl
  | succ n ih => simp [emitGroups, ih]

/-- The byte at index i carries group n-1-i; its continuation bit is set unless it is the last (R62, R65, R66). -/
theorem emitGroups_getD (group : Nat → Byte) {n i : Nat} (h : i < n) :
    (emitGroups group n).getD i 0 = packByte (decide (i + 1 < n)) (group (n - 1 - i)) := by
  induction n generalizing i with
  | zero => omega
  | succ n ih =>
    cases i with
    | zero => cases n <;> simp [emitGroups]
    | succ i =>
      rw [emitGroups, List.getD_cons_succ, ih (by omega)]
      congr 2
      · simp
      · omega

@[simp] theorem encodingL_length (W : Nat) (v : BitVec W) : (encodingL W v).length = sizeL W v := by simp [encodingL]

@[simp] theorem encodingR_length (W : Nat) (v : BitVec W) : (encodingR W v).length = sizeR W v := by simp [encodingR]

/-! ### The decoder's loop -/

section loop

variable {W : Nat} (fold : BitVec W → Byte → BitVec W) (byteAt : Nat → Byte)

/-- A terminator k bytes on ends the loop there. -/
theorem decodeLoop_terminates (left i k : Nat) (acc : BitVec W) (hk : k < left)
    (hmore : ∀ j < k, continues (byteAt (i + j)) = true) (hlast : continues (byteAt (i + k)) = false) :
    decodeLoop fold byteAt left i acc =
      ⟨((List.range (k + 1)).map (fun j => byteAt (i + j))).foldl fold acc, i + k + 1, true,
        (List.range (k + 1)).map (fun j => Access.read (i + j))⟩ := by
  induction k generalizing left i acc with
  | zero =>
    obtain ⟨left, rfl⟩ : ∃ l, left = l + 1 := ⟨left - 1, by omega⟩
    simp only [Nat.add_zero] at hlast
    simp [decodeLoop, hlast]
  | succ k ih =>
    obtain ⟨left, rfl⟩ : ∃ l, left = l + 1 := ⟨left - 1, by omega⟩
    have h0 : continues (byteAt i) = true := by simpa using hmore 0 (by omega)
    have ih := ih left (i + 1) (fold acc (byteAt i)) (by omega)
      (fun j hj => by rw [show i + 1 + j = i + (j + 1) by omega]; exact hmore (j + 1) (by omega))
      (by rw [show i + 1 + k = i + (k + 1) by omega]; exact hlast)
    rw [decodeLoop, if_pos h0, ih, List.range_succ_eq_map (n := k + 1)]
    simp only [List.map_cons, List.map_map, List.foldl_cons, Nat.add_zero, DecodeRun.mk.injEq, true_and, List.cons.injEq]
    refine ⟨?_, by omega, ?_⟩
    · congr 1
      exact List.map_congr_left fun j _ => by simp [Nat.add_comm, Nat.add_left_comm]
    · exact List.map_congr_left fun j _ => by simp [Nat.add_comm, Nat.add_left_comm]

/-- With no terminator all the bytes are consumed. -/
theorem decodeLoop_runs_out (left i : Nat) (acc : BitVec W) (hmore : ∀ j < left, continues (byteAt (i + j)) = true) :
    decodeLoop fold byteAt left i acc =
      ⟨((List.range left).map (fun j => byteAt (i + j))).foldl fold acc, i + left, false,
        (List.range left).map (fun j => Access.read (i + j))⟩ := by
  induction left generalizing i acc with
  | zero => rfl
  | succ left ih =>
    have h0 : continues (byteAt i) = true := by simpa using hmore 0 (by omega)
    have ih := ih (i + 1) (fold acc (byteAt i))
      (fun j hj => by rw [show i + 1 + j = i + (j + 1) by omega]; exact hmore (j + 1) (by omega))
    rw [decodeLoop, if_pos h0, ih, List.range_succ_eq_map]
    simp only [List.map_cons, List.map_map, List.foldl_cons, Nat.add_zero, DecodeRun.mk.injEq, true_and, List.cons.injEq]
    refine ⟨?_, by omega, ?_⟩
    · congr 1
      exact List.map_congr_left fun j _ => by simp [Nat.add_comm, Nat.add_left_comm]
    · exact List.map_congr_left fun j _ => by simp [Nat.add_comm, Nat.add_left_comm]

end loop

/-- Among finitely many bytes there is a first terminator or none. -/
theorem terminates_or_not (byteAt : Nat → Byte) (len : Nat) :
    (∃ k, TerminatesAt byteAt len k) ∨ Unterminated byteAt len := by
  induction len with
  | zero => exact .inr fun j hj => absurd hj (by omega)
  | succ len ih =>
    rcases ih with ⟨k, hk, hl, hm⟩ | hu
    · exact .inl ⟨k, by omega, hl, hm⟩
    · by_cases h : continues (byteAt len) = true
      · refine .inr fun j hj => ?_
        rcases Nat.lt_succ_iff_lt_or_eq.1 hj with hj | rfl
        · exact hu j hj
        · exact h
      · exact .inl ⟨len, by omega, by simpa using h, hu⟩

end Sys2Proof.Machine
end

