-- ==== Sys2Proof/Laws/Groups.lean ====
section
/-! SUPPORT. Sizes, groups and folds, for any width W >= 7: what a size bound says about the value, the bits of a group and of a
packed byte, and that folding the emitted groups of a value gives the value. -/

namespace Sys2Proof.Machine

theorem shiftLeft_eq_zero_mono {W : Nat} {v : BitVec W} {a b : Nat} (h : v <<< a = 0) (hab : a ≤ b) : v <<< b = 0 := by
  obtain ⟨c, rfl⟩ := Nat.exists_eq_add_of_le hab
  rw [BitVec.shiftLeft_add, h]; simp

theorem shiftRight_eq_zero_mono {W : Nat} {v : BitVec W} {a b : Nat} (h : v >>> a = 0) (hab : a ≤ b) : v >>> b = 0 := by
  obtain ⟨c, rfl⟩ := Nat.exists_eq_add_of_le hab
  rw [BitVec.shiftRight_add, h]; simp

theorem lt_seven_maxBytes (W : Nat) : W < 7 * maxBytes W := by
  unfold maxBytes groupCount; omega

theorem shiftLeft_maxBytes {W : Nat} (v : BitVec W) : v <<< (7 * maxBytes W) = 0 := by
  exact BitVec.shiftLeft_eq_zero (Nat.le_of_lt (lt_seven_maxBytes W))

theorem shiftRight_maxBytes {W : Nat} (v : BitVec W) : v >>> (7 * maxBytes W) = 0 := by
  apply BitVec.eq_of_toNat_eq
  rw [BitVec.toNat_ushiftRight, Nat.shiftRight_eq_div_pow]
  have : v.toNat < 2 ^ (7 * maxBytes W) :=
    lt_of_lt_of_le v.isLt (Nat.pow_le_pow_right (by omega) (Nat.le_of_lt (lt_seven_maxBytes W)))
  simp [Nat.div_eq_of_lt this]

/-- A count of shifts is the least number of 7-bit shifts that leaves nothing. -/
theorem shiftsToZero_le_iff {W : Nat} (shift : BitVec W → BitVec W) (fuel : Nat) (t : BitVec W) (hz : shift^[fuel] t = 0)
    (h0 : shift 0 = 0) (n : Nat) : shiftsToZero shift fuel t ≤ n ↔ shift^[n] t = 0 := by
  have zeros : ∀ n, shift^[n] 0 = 0 := fun n => by
    induction n with
    | zero => rfl
    | succ n ih => rw [Function.iterate_succ_apply, h0, ih]
  induction fuel generalizing t n with
  | zero =>
    have ht : t = 0 := hz
    rw [ht, zeros]
    exact ⟨fun _ => rfl, fun _ => Nat.zero_le _⟩
  | succ fuel ih =>
    by_cases ht : t = 0
    · rw [shiftsToZero, if_pos ht, ht, zeros]
      exact ⟨fun _ => rfl, fun _ => Nat.zero_le _⟩
    · rw [shiftsToZero, if_neg ht]
      cases n with
      | zero => exact ⟨fun h => absurd h (by omega), fun h => absurd h ht⟩
      | succ n => exact Nat.add_le_add_iff_right.trans (ih (shift t) hz n)

theorem sizeL_le_iff (W : Nat) (v : BitVec W) {n : Nat} (hn : 1 ≤ n) : sizeL W v ≤ n ↔ v <<< (7 * n) = 0 := by
  unfold sizeL
  split
  case isTrue h => simp [h, hn]
  case isFalse h =>
    rw [shiftsToZero_le_iff _ _ _ (by rw [shiftLeft_iterate]; exact shiftLeft_maxBytes v) (by simp), shiftLeft_iterate]

theorem sizeR_le_iff (W : Nat) (v : BitVec W) {n : Nat} (hn : 1 ≤ n) : sizeR W v ≤ n ↔ v >>> (7 * n) = 0 := by
  unfold sizeR
  split
  case isTrue h =>
    have : v >>> (7 * n) = 0 := by
      apply BitVec.eq_of_toNat_eq
      have : v.toNat < 2 ^ (7 * n) := lt_of_le_of_lt h (lt_of_lt_of_le (by norm_num : 0x7F < 2 ^ 7)
        (Nat.pow_le_pow_right (by omega) (by omega)))
      simp [BitVec.toNat_ushiftRight, Nat.shiftRight_eq_div_pow, Nat.div_eq_of_lt this]
    simp [this, hn]
  case isFalse h =>
    rw [shiftsToZero_le_iff _ _ _ (by rw [shiftRight_iterate]; exact shiftRight_maxBytes v) (by simp), shiftRight_iterate]

theorem sizeL_pos (W : Nat) (v : BitVec W) : 1 ≤ sizeL W v := by
  unfold sizeL
  split
  · exact Nat.le_refl 1
  case isFalse h =>
    rw [maxBytes, shiftsToZero, if_neg h]
    omega

theorem sizeR_pos (W : Nat) (v : BitVec W) : 1 ≤ sizeR W v := by
  unfold sizeR
  split
  · exact Nat.le_refl 1
  case isFalse h =>
    have : v ≠ 0 := by rintro rfl; simp at h
    rw [maxBytes, shiftsToZero, if_neg this]
    omega

theorem groupL_getLsbD {W : Nat} (hW : 7 ≤ W) (v : BitVec W) (k j : Nat) :
    (groupL W v k).getLsbD j = (decide (j < 7) && decide (7 * k + 7 ≤ W + j) && v.getLsbD (W + j - (7 * k + 7))) := by
  simp only [groupL, topShift, BitVec.getLsbD_setWidth, BitVec.getLsbD_ushiftRight, BitVec.getLsbD_shiftLeft]
  by_cases h : j < 7
  · by_cases h2 : 7 * k + 7 ≤ W + j
    · have e : W - 7 + j - 7 * k = W + j - (7 * k + 7) := by omega
      simp [h, h2, e, show j < 8 by omega, show W - 7 + j < W by omega, show ¬ (W - 7 + j < 7 * k) by omega]
    · simp [h2, show W - 7 + j < 7 * k by omega]
  · simp [h, show ¬ (W - 7 + j < W) by omega]

theorem groupR_getLsbD {W : Nat} (hW : 7 ≤ W) (v : BitVec W) (k j : Nat) :
    (groupR W v k).getLsbD j = (decide (j < 7) && v.getLsbD (7 * k + j)) := by
  simp only [groupR, BitVec.getLsbD_setWidth, BitVec.getLsbD_and, BitVec.getLsbD_ushiftRight, BitVec.getLsbD_ofNat]
  rw [show (0x7F : Nat) = 2 ^ 7 - 1 from rfl, Nat.testBit_two_pow_sub_one]
  by_cases h : j < 7
  · simp [h, show j < 8 by omega, show j < W by omega]
  · simp [h]

theorem dataBits_getLsbD (b : Byte) (j : Nat) : (dataBits b).getLsbD j = (decide (j < 7) && b.getLsbD j) := by
  have : (0x7F : Byte) = BitVec.ofNat 8 (2 ^ 7 - 1) := rfl
  simp only [dataBits, this, BitVec.getLsbD_and, BitVec.getLsbD_ofNat, Nat.testBit_two_pow_sub_one]
  by_cases h : j < 7
  · simp [h, show j < 8 by omega]
  · simp [h]

theorem continues_packByte (more : Bool) {d : Byte} (h : continues d = false) : continues (packByte more d) = more := by
  cases more
  · simpa [packByte] using h
  · simp [packByte, continues]

theorem dataBits_packByte (more : Bool) {d : Byte} (h : continues d = false) : dataBits (packByte more d) = d := by
  revert h
  cases more <;> (revert d; decide)

theorem continues_groupL {W : Nat} (hW : 7 ≤ W) (v : BitVec W) (k : Nat) : continues (groupL W v k) = false := by
  rw [continues, groupL_getLsbD hW]
  rfl
theorem continues_groupR {W : Nat} (hW : 7 ≤ W) (v : BitVec W) (k : Nat) : continues (groupR W v k) = false := by
  rw [continues, groupR_getLsbD hW]
  rfl

theorem stepL_eq {W : Nat} (hW : 7 ≤ W) (acc : BitVec W) (b : Byte) :
    stepL W acc b = (acc >>> 7) ||| ((dataBits b).setWidth W <<< (W - 7)) := by
  apply BitVec.eq_of_getLsbD_eq
  intro i hi
  simp only [stepL, topShift, BitVec.getLsbD_or, BitVec.getLsbD_shiftLeft, BitVec.getLsbD_setWidth, dataBits_getLsbD]
  by_cases h : i < W - 7
  · simp [h]
  · simp [show i - (W - 7) < 7 by omega]

theorem stepL_group {W : Nat} (hW : 7 ≤ W) (v : BitVec W) (k : Nat) (more : Bool) :
    stepL W (v <<< (7 * (k + 1))) (packByte more (groupL W v k)) = v <<< (7 * k) := by
  rw [stepL_eq hW, dataBits_packByte _ (continues_groupL hW v k)]
  apply BitVec.eq_of_getLsbD_eq
  intro i hi
  simp only [BitVec.getLsbD_or, BitVec.getLsbD_ushiftRight, BitVec.getLsbD_shiftLeft, BitVec.getLsbD_setWidth,
    groupL_getLsbD hW]
  by_cases h : i < W - 7
  · simp only [h, decide_true, Bool.not_true, Bool.and_false, Bool.false_and, Bool.or_false,
      show 7 + i < W by omega, hi, Bool.true_and]
    rw [show 7 + i - 7 * (k + 1) = i - 7 * k by omega]
    congr 2
    exact decide_eq_decide.2 (by omega)
  · have h7 : i - (W - 7) < 7 := by omega
    simp only [h, show ¬ (7 + i < W) by omega, decide_false, Bool.false_and, Bool.false_or, Bool.not_false, hi, h7,
      show i - (W - 7) < W by omega, decide_true, Bool.true_and, Bool.and_true]
    by_cases h2 : i < 7 * k
    · simp [h2, show ¬ (7 * k + 7 ≤ W + (i - (W - 7))) by omega]
    · simp [h2, show 7 * k + 7 ≤ W + (i - (W - 7)) by omega, show W + (i - (W - 7)) - (7 * k + 7) = i - 7 * k by omega]

theorem stepR_group {W : Nat} (hW : 7 ≤ W) (v : BitVec W) (k : Nat) (more : Bool) :
    stepR W (v >>> (7 * (k + 1))) (packByte more (groupR W v k)) = v >>> (7 * k) := by
  rw [stepR, dataBits_packByte _ (continues_groupR hW v k)]
  apply BitVec.eq_of_getLsbD_eq
  intro i hi
  simp only [BitVec.getLsbD_or, BitVec.getLsbD_ushiftRight, BitVec.getLsbD_shiftLeft, BitVec.getLsbD_setWidth,
    groupR_getLsbD hW]
  by_cases h : i < 7
  · simp [h, hi]
  · simp [h, hi, show 7 * (k + 1) + (i - 7) = 7 * k + i by omega]

theorem foldL_groups {W : Nat} (hW : 7 ≤ W) (v : BitVec W) (n : Nat) :
    (emitGroups (groupL W v) n).foldl (stepL W) (v <<< (7 * n)) = v := by
  induction n with
  | zero => simp [emitGroups]
  | succ n ih => rw [emitGroups, List.foldl_cons, stepL_group hW, ih]

theorem foldR_groups {W : Nat} (hW : 7 ≤ W) (v : BitVec W) (n : Nat) :
    (emitGroups (groupR W v) n).foldl (stepR W) (v >>> (7 * n)) = v := by
  induction n with
  | zero => simp [emitGroups]
  | succ n ih => rw [emitGroups, List.foldl_cons, stepR_group hW, ih]

end Sys2Proof.Machine
end

