-- ==== Sys2Proof/Laws/Ops.lean ====
section
/-! SUPPORT. What each shared operation of the machine does, said once: an encode, a decode, an absent operation, the
operations by orientation and width, and one step. -/

namespace Sys2Proof.Machine

/-! ### Encode -/

theorem State.encoded_small {s : State} {n : Nat} (bytes : List Byte) (h : s.ports.cap < n) :
    s.encoded n bytes = s.finish ⟨some 0, AccLanes.absent, none, some .insufficientCapacity⟩ [] := by
  simp [State.encoded, h, statusOfCount]

theorem State.encoded_fits {s : State} {n : Nat} (bytes : List Byte) (h : n ≤ s.ports.cap) :
    s.encoded n bytes =
      State.finish { s with mem := (storeBytes s.ports.base s.mem 0 bytes).mem }
        ⟨some n, AccLanes.absent, none, some (statusOfCount n)⟩ (storeBytes s.ports.base s.mem 0 bytes).accesses := by
  simp [State.encoded, Nat.not_lt.2 h]

theorem State.encoded_kept (s : State) (n : Nat) (bytes : List Byte) : s.Kept (s.encoded n bytes) := by
  unfold State.encoded
  split <;> exact ⟨rfl, rfl, rfl⟩

/-! ### Decode -/

/-- A decode over a buffer with its first terminator at index k. -/
theorem State.decodeRun_terminates {W : Nat} {s : State} (fold : BitVec W → Byte → BitVec W) (acc : BitVec W) {k : Nat}
    (h : TerminatesAt s.bufferByte s.ports.len k) :
    s.decodeRun fold acc =
      ⟨((List.range (k + 1)).map s.bufferByte).foldl fold acc, k + 1, true, (List.range (k + 1)).map Access.read⟩ := by
  have := decodeLoop_terminates fold s.bufferByte s.ports.len 0 k acc h.1 (by simpa using h.2.2) (by simpa using h.2.1)
  simpa only [State.decodeRun, Nat.zero_add] using this

/-- A decode over a buffer without a terminator. -/
theorem State.decodeRun_runs_out {W : Nat} {s : State} (fold : BitVec W → Byte → BitVec W) (acc : BitVec W)
    (h : Unterminated s.bufferByte s.ports.len) :
    s.decodeRun fold acc =
      ⟨((List.range s.ports.len).map s.bufferByte).foldl fold acc, s.ports.len, false,
        (List.range s.ports.len).map Access.read⟩ := by
  have := decodeLoop_runs_out fold s.bufferByte s.ports.len 0 acc (by simpa [Unterminated] using h)
  simpa only [State.decodeRun, Nat.zero_add] using this

/-! ### The operations by orientation and width -/

theorem exec_size (o : Orient) (w : Width) (s : State) (h : (Instr.ofFields .size o w).wf s.cfg = true) :
    exec (Instr.ofFields .size o w) s = .next (s.sized (encodedSize o w.bits (s.ports.value.get w))) := by
  cases o <;> cases w <;> first | rfl | exact congrArg _ (if_pos h)

theorem exec_enc (o : Orient) (w : Width) (s : State) (h : (Instr.ofFields .enc o w).wf s.cfg = true) :
    exec (Instr.ofFields .enc o w) s =
      .next (s.encoded (encodedSize o w.bits (s.ports.value.get w)) (encodingOf o w.bits (s.ports.value.get w))) := by
  cases o <;> cases w <;> first | rfl | exact congrArg _ (if_pos h)

theorem exec_dec (o : Orient) (w : Width) (s : State) (h : (Instr.ofFields .dec o w).wf s.cfg = true) :
    exec (Instr.ofFields .dec o w) s =
      .next (s.decoded (AccLanes.of w) (s.decodeRun (stepOf o w.bits) (s.ports.accIn.get w))) := by
  cases o <;> cases w <;> first | rfl | exact congrArg _ (if_pos h)

/-- An operation the build does not have drives the results of a reserved code. -/
theorem exec_absent (i : Instr) (s : State) (h : i.wf s.cfg = false) : exec i s = .next s.illegalOp := by
  cases i <;> first
    | exact congrArg _ (if_neg (ne_true_of_eq_false h))
    | exact absurd (show true = false from h) (by decide)

/-- Every operation is a size, an encode or a decode of some orientation and width. -/
theorem instr_exists_fields (i : Instr) : ∃ f o w, i = Instr.ofFields f o w :=
  ⟨i.func, i.orient, i.width, by cases i <;> rfl⟩

/-- What an operation can do, said once: the refusal of an absent one, a size, an encode or a decode. -/
theorem exec_cases {i : Instr} {s t : State} (h : exec i s = .next t) :
    (i.wf s.cfg = false ∧ t = s.illegalOp) ∨
    (i.wf s.cfg = true ∧ i.func = .size ∧
      t = s.sized (encodedSize i.orient i.width.bits (s.ports.value.get i.width))) ∨
    (i.wf s.cfg = true ∧ i.func = .enc ∧
      t = s.encoded (encodedSize i.orient i.width.bits (s.ports.value.get i.width))
        (encodingOf i.orient i.width.bits (s.ports.value.get i.width))) ∨
    (i.wf s.cfg = true ∧ i.func = .dec ∧
      t = s.decoded (AccLanes.of i.width)
        (s.decodeRun (stepOf i.orient i.width.bits) (s.ports.accIn.get i.width))) := by
  by_cases hw : i.wf s.cfg = true
  · have hi : i = Instr.ofFields i.func i.orient i.width := by cases i <;> rfl
    right
    cases hf : i.func <;> rw [hf] at hi
    · left; rw [hi, exec_size _ _ _ (hi ▸ hw)] at h; cases h; exact ⟨hw, rfl, rfl⟩
    · right; left; rw [hi, exec_enc _ _ _ (hi ▸ hw)] at h; cases h; exact ⟨hw, rfl, rfl⟩
    · right; right; rw [hi, exec_dec _ _ _ (hi ▸ hw)] at h; cases h; exact ⟨hw, rfl, rfl⟩
  · have hw : i.wf s.cfg = false := by simpa using hw
    rw [exec_absent i s hw] at h; cases h; exact .inl ⟨hw, rfl⟩

/-- An operation changes neither the parameters, nor the requests waiting, nor the operands. -/
theorem exec_kept {i : Instr} {s t : State} (h : exec i s = .next t) : s.Kept t := by
  by_cases hw : i.wf s.cfg = true
  · obtain ⟨f, o, w, rfl⟩ := instr_exists_fields i
    cases f
    · rw [exec_size o w s hw] at h; cases h; exact State.kept_finish _ _ _
    · rw [exec_enc o w s hw] at h; cases h; exact State.encoded_kept _ _ _
    · rw [exec_dec o w s hw] at h; cases h; exact State.kept_finish _ _ _
  · rw [exec_absent i s (by simpa using hw)] at h; cases h; exact State.kept_finish _ _ _

/-! ### One step -/

theorem step_idle {s : State} (h : s.issued = []) : step s = .next s := by
  simp [step, h]

theorem step_issued {s : State} {r : Request} {rest : List Request} (h : s.issued = r :: rest) :
    step s = (s.accept r rest).perform := by
  simp [step, h]

theorem State.perform_ok {s : State} {i : Instr} (h : decode s.cfg s.ports.op = .ok i) : s.perform = exec i s := by
  simp [State.perform, h]

theorem State.perform_error {s : State} {e : DecodeError} (h : decode s.cfg s.ports.op = .error e) :
    s.perform = .next s.illegalOp := by
  simp [State.perform, h]

theorem core_run_succ (M : Host.Core) (k : Nat) (s t : M.State) (h : M.step s = .next t) :
    M.run (k + 1) s = M.run k t := by
  rw [Host.Core.run, h]

theorem run_succ (k : Nat) {s t : State} (h : step s = .next t) :
    Host.Core.run Sys2Proof.core (k + 1) s = Host.Core.run Sys2Proof.core k t :=
  core_run_succ Sys2Proof.core k s t h

end Sys2Proof.Machine
end

