-- ==== Sys2Proof/Laws/PerInstr.lean ====
section
/-! SUPPORT. One family of statements per operation: the three fields of an operation name it, and give its select word and
its name in spec/opcode_table.json (R77, R80). -/

namespace Sys2Proof.Laws

/-- An operation is the one with its own function, orientation and width, and its select word has their codes in bits 1:0, 2
and 4:3 (R77). -/
def FieldsAgree.Statement (i : Instr) : Prop :=
  Instr.ofFields i.func i.orient i.width = i ∧
    funcField (encode i) = i.func.code ∧ orientField (encode i) = i.orient.code ∧ widthField (encode i) = i.width.code

theorem FieldsAgree.sizeL32 : FieldsAgree.Statement .sizeL32 := by refine ⟨rfl, ?_, ?_, ?_⟩ <;> decide
theorem FieldsAgree.encL32 : FieldsAgree.Statement .encL32 := by refine ⟨rfl, ?_, ?_, ?_⟩ <;> decide
theorem FieldsAgree.decL32 : FieldsAgree.Statement .decL32 := by refine ⟨rfl, ?_, ?_, ?_⟩ <;> decide
theorem FieldsAgree.sizeR32 : FieldsAgree.Statement .sizeR32 := by refine ⟨rfl, ?_, ?_, ?_⟩ <;> decide
theorem FieldsAgree.encR32 : FieldsAgree.Statement .encR32 := by refine ⟨rfl, ?_, ?_, ?_⟩ <;> decide
theorem FieldsAgree.decR32 : FieldsAgree.Statement .decR32 := by refine ⟨rfl, ?_, ?_, ?_⟩ <;> decide
theorem FieldsAgree.sizeL64 : FieldsAgree.Statement .sizeL64 := by refine ⟨rfl, ?_, ?_, ?_⟩ <;> decide
theorem FieldsAgree.encL64 : FieldsAgree.Statement .encL64 := by refine ⟨rfl, ?_, ?_, ?_⟩ <;> decide
theorem FieldsAgree.decL64 : FieldsAgree.Statement .decL64 := by refine ⟨rfl, ?_, ?_, ?_⟩ <;> decide
theorem FieldsAgree.sizeR64 : FieldsAgree.Statement .sizeR64 := by refine ⟨rfl, ?_, ?_, ?_⟩ <;> decide
theorem FieldsAgree.encR64 : FieldsAgree.Statement .encR64 := by refine ⟨rfl, ?_, ?_, ?_⟩ <;> decide
theorem FieldsAgree.decR64 : FieldsAgree.Statement .decR64 := by refine ⟨rfl, ?_, ?_, ?_⟩ <;> decide
theorem FieldsAgree.sizeL128 : FieldsAgree.Statement .sizeL128 := by refine ⟨rfl, ?_, ?_, ?_⟩ <;> decide
theorem FieldsAgree.encL128 : FieldsAgree.Statement .encL128 := by refine ⟨rfl, ?_, ?_, ?_⟩ <;> decide
theorem FieldsAgree.decL128 : FieldsAgree.Statement .decL128 := by refine ⟨rfl, ?_, ?_, ?_⟩ <;> decide
theorem FieldsAgree.sizeR128 : FieldsAgree.Statement .sizeR128 := by refine ⟨rfl, ?_, ?_, ?_⟩ <;> decide
theorem FieldsAgree.encR128 : FieldsAgree.Statement .encR128 := by refine ⟨rfl, ?_, ?_, ?_⟩ <;> decide
theorem FieldsAgree.decR128 : FieldsAgree.Statement .decR128 := by refine ⟨rfl, ?_, ?_, ?_⟩ <;> decide

end Sys2Proof.Laws
end

