-- ==== Sys2Proof/Tests/Slice0.lean ====
section
/-! SUPPORT. Small tests on fixed values. Expected results are the spec's: its vectors S1 to S5 and the tables of
95_test_vectors.md (section numbers in the comments), and the select codes of opcode_table.json. The witnesses at the end
show that the hypotheses of each statement of Certificates/Slice0/Obligations.lean can be met. -/

namespace Sys2Proof.Tests

open Sys2Proof.Machine

/-- The same number on a port at every width. -/
def lanes (n : Nat) : Lanes := ⟨BitVec.ofNat 32 n, BitVec.ofNat 64 n, BitVec.ofNat 128 n⟩

/-- A state with these operands on the ports and these bytes from address 0x40 on. -/
def presented (value accIn cap len : Nat) (bytes : List Byte) : State :=
  { State.reset with
    ports := ⟨0, lanes value, lanes accIn, cap, len, 0x40⟩
    mem := (storeBytes 0x40 [] 0 bytes).mem }

/-- The same in a build without 128-bit operations. -/
def narrow (value accIn cap len : Nat) (bytes : List Byte) : State :=
  { presented value accIn cap len bytes with cfg := ⟨false⟩ }

/-- `count` and `status` of an outcome that goes on. -/
def countStatus : Host.Outcome State Fault Refusal → Option Nat × Option Status
  | .next t => (t.results.count, t.results.status)
  | _ => (none, none)

/-- `acc_out` at a width (as a number), `count`, `term` and `status` of an outcome that goes on. -/
def decoded (w : Width) : Host.Outcome State Fault Refusal → Option Nat × Option Nat × Option Bool × Option Status
  | .next t => ((t.results.accOut.get w).map BitVec.toNat, t.results.count, t.results.term, t.results.status)
  | _ => (none, none, none, none)

/-- The first n bytes of the buffer after an outcome that goes on. -/
def bufferAfter (n : Nat) : Host.Outcome State Fault Refusal → List Byte
  | .next t => (List.range n).map t.bufferByte
  | _ => []

/-! ### The select word: every code of opcode_table.json, bits written out (width, orient, func) -/

theorem test_words_of_width_32 : decode ⟨true⟩ 0b00000#5 = .ok .sizeL32 ∧
    decode ⟨true⟩ 0b00001#5 = .ok .encL32 ∧
    decode ⟨true⟩ 0b00010#5 = .ok .decL32 ∧
    decode ⟨true⟩ 0b00100#5 = .ok .sizeR32 ∧
    decode ⟨true⟩ 0b00101#5 = .ok .encR32 ∧
    decode ⟨true⟩ 0b00110#5 = .ok .decR32 := by decide

theorem test_words_of_width_64 : decode ⟨true⟩ 0b01000#5 = .ok .sizeL64 ∧
    decode ⟨true⟩ 0b01001#5 = .ok .encL64 ∧
    decode ⟨true⟩ 0b01010#5 = .ok .decL64 ∧
    decode ⟨true⟩ 0b01100#5 = .ok .sizeR64 ∧
    decode ⟨true⟩ 0b01101#5 = .ok .encR64 ∧
    decode ⟨true⟩ 0b01110#5 = .ok .decR64 := by decide

theorem test_words_of_width_128 : decode ⟨true⟩ 0b10000#5 = .ok .sizeL128 ∧
    decode ⟨true⟩ 0b10001#5 = .ok .encL128 ∧
    decode ⟨true⟩ 0b10010#5 = .ok .decL128 ∧
    decode ⟨true⟩ 0b10100#5 = .ok .sizeR128 ∧
    decode ⟨true⟩ 0b10101#5 = .ok .encR128 ∧
    decode ⟨true⟩ 0b10110#5 = .ok .decR128 := by decide

theorem test_table_words_decode : decodeTableWord 8 0x0D = some .encR64 ∧ decodeTableWord 8 0x12 = some .decL128 ∧
    decodeTableWord 8 0x03 = none ∧ decodeTableWord 8 0x20 = none := by decide

/-- 95 section 2.10: reserved codes. -/
theorem test_reserved_words : decode ⟨true⟩ 0b00011#5 = .error .reservedFunc ∧ decode ⟨true⟩ 0b11000#5 = .error .reservedWidth ∧
    decode ⟨false⟩ 0b10001#5 = .error .absentWidth128 := by decide

/-- R80. -/
theorem test_names : Instr.mnemonic .sizeL32 = "SIZE.L.32" ∧ Instr.mnemonic .encR64 = "ENC.R.64" ∧
    Instr.mnemonic .decL128 = "DEC.L.128" := by decide

/-! ### Well-formedness: the one check, on an operation the build does not have -/

theorem test_wf_refuses_absent_width128 : Instr.wf ⟨false⟩ .sizeL128 = false ∧ Instr.wf ⟨false⟩ .decR128 = false ∧ Instr.wf ⟨true⟩ .sizeL128 = true := by decide

/-! ### SIZE (95 sections 2.1 and 2.2) -/

theorem test_sizeL32 : countStatus (execSizeL32 (presented (0x12345678) 0 0 0 [])) = (some 5, some .ok) ∧
    countStatus (execSizeL32 (presented (0x10) 0 0 0 [])) = (some 4, some .ok) := by decide

theorem test_sizeL64 : countStatus (execSizeL64 (presented (0x1234567812345678) 0 0 0 [])) = (some 9, some .ok) ∧
    countStatus (execSizeL64 (presented (0x100) 0 0 0 [])) = (some 8, some .ok) := by decide

theorem test_sizeL128 : countStatus (execSizeL128 (presented (2 ^ 64) 0 0 0 [])) = (some 10, some .ok) ∧
    countStatus (execSizeL128 (presented (4) 0 0 0 [])) = (some 18, some .ok) := by decide

theorem test_sizeR32 : countStatus (execSizeR32 (presented (2000000) 0 0 0 [])) = (some 3, some .ok) ∧
    countStatus (execSizeR32 (presented (0x7F) 0 0 0 [])) = (some 1, some .ok) := by decide

theorem test_sizeR64 : countStatus (execSizeR64 (presented (0x4AA61F24F4) 0 0 0 [])) = (some 6, some .ok) ∧
    countStatus (execSizeR64 (presented (2 ^ 63) 0 0 0 [])) = (some 10, some .ok) := by decide

theorem test_sizeR128 : countStatus (execSizeR128 (presented (2 ^ 64) 0 0 0 [])) = (some 10, some .ok) ∧
    countStatus (execSizeR128 (presented (2 ^ 126 - 1) 0 0 0 [])) = (some 18, some .ok) := by decide

/-! ### ENC (R108 to R110, R138 to R140; source vectors S1, S3, S4, S5; 95 section 2.7) -/

theorem test_encL32 : bufferAfter 6 (execEncL32 (presented (0x12345678) 0 5 0 (List.replicate 6 0xaa))) =
    [0xc0, 0xe7, 0x8a, 0x8d, 0x09, 0xaa] := by decide

theorem test_encL32_short : countStatus (execEncL32 (presented (0x12345678) 0 4 0 (List.replicate 3 0xaa))) =
    (some 0, some .insufficientCapacity) ∧
    bufferAfter 3 (execEncL32 (presented (0x12345678) 0 4 0 (List.replicate 3 0xaa))) = [0xaa, 0xaa, 0xaa] := by decide

theorem test_encL64 : bufferAfter 10 (execEncL64 (presented (0x1234567812345678) 0 9 0 (List.replicate 10 0xaa))) =
    [0xbc, 0xd6, 0xe8, 0xc8, 0xc0, 0xe7, 0x8a, 0x8d, 0x09, 0xaa] := by decide

theorem test_encL64_short : countStatus (execEncL64 (presented (0x1234567812345678) 0 8 0 (List.replicate 3 0xaa))) =
    (some 0, some .insufficientCapacity) ∧
    bufferAfter 3 (execEncL64 (presented (0x1234567812345678) 0 8 0 (List.replicate 3 0xaa))) = [0xaa, 0xaa, 0xaa] := by decide

theorem test_encL128 : bufferAfter 11 (execEncL128 (presented (2 ^ 64) 0 10 0 (List.replicate 11 0xaa))) =
    [0xc0, 0x80, 0x80, 0x80, 0x80, 0x80, 0x80, 0x80, 0x80, 0x00, 0xaa] := by decide

theorem test_encL128_short : countStatus (execEncL128 (presented (2 ^ 64) 0 9 0 (List.replicate 3 0xaa))) =
    (some 0, some .insufficientCapacity) ∧
    bufferAfter 3 (execEncL128 (presented (2 ^ 64) 0 9 0 (List.replicate 3 0xaa))) = [0xaa, 0xaa, 0xaa] := by decide

theorem test_encR32 : bufferAfter 4 (execEncR32 (presented (2000000) 0 3 0 (List.replicate 4 0xaa))) =
    [0xfa, 0x89, 0x00, 0xaa] := by decide

theorem test_encR32_short : countStatus (execEncR32 (presented (2000000) 0 2 0 (List.replicate 3 0xaa))) =
    (some 0, some .insufficientCapacity) ∧
    bufferAfter 3 (execEncR32 (presented (2000000) 0 2 0 (List.replicate 3 0xaa))) = [0xaa, 0xaa, 0xaa] := by decide

theorem test_encR64 : bufferAfter 7 (execEncR64 (presented (0x4AA61F24F4) 0 6 0 (List.replicate 7 0xaa))) =
    [0x89, 0xaa, 0xb0, 0xfc, 0xc9, 0x74, 0xaa] := by decide

theorem test_encR64_short : countStatus (execEncR64 (presented (0x4AA61F24F4) 0 5 0 (List.replicate 3 0xaa))) =
    (some 0, some .insufficientCapacity) ∧
    bufferAfter 3 (execEncR64 (presented (0x4AA61F24F4) 0 5 0 (List.replicate 3 0xaa))) = [0xaa, 0xaa, 0xaa] := by decide

theorem test_encR128 : bufferAfter 11 (execEncR128 (presented (2 ^ 64) 0 10 0 (List.replicate 11 0xaa))) =
    [0x82, 0x80, 0x80, 0x80, 0x80, 0x80, 0x80, 0x80, 0x80, 0x00, 0xaa] := by decide

theorem test_encR128_short : countStatus (execEncR128 (presented (2 ^ 64) 0 9 0 (List.replicate 3 0xaa))) =
    (some 0, some .insufficientCapacity) ∧
    bufferAfter 3 (execEncR128 (presented (2 ^ 64) 0 9 0 (List.replicate 3 0xaa))) = [0xaa, 0xaa, 0xaa] := by decide

/-- Source vector S3, the evidence for conflict C1. -/
theorem test_encL64_of_one : bufferAfter 10 (execEncL64 (presented 1 0 10 0 [])) = [0xc0, 0x80, 0x80, 0x80, 0x80, 0x80, 0x80, 0x80, 0x80, 0x00] := by decide

/-! ### DEC (R115 to R117, R145 to R147; source vector S2; 95 sections 2.8 and 2.9) -/

theorem test_decL32_first : decoded .w32 (execDecL32 (presented 0 (0) 0 5 [0xc0, 0xe7, 0x8a, 0x8d, 0x09])) =
    (some (0x12345678), some 5, some true, some .ok) := by decide

theorem test_decL32_second : decoded .w32 (execDecL32 (presented 0 (0xFFFFFFFF) 0 1 [0x00])) =
    (some (0x1FFFFFF), some 1, some true, some .ok) := by decide

theorem test_decL64_first : decoded .w64 (execDecL64 (presented 0 (0x91A2B3C000000000) 0 6 [0xc0, 0xe7, 0x8a, 0x8d, 0x09, 0xff])) =
    (some (0x1234567812345678), some 5, some true, some .ok) := by decide

theorem test_decL64_second : decoded .w64 (execDecL64 (presented 0 (0) 0 3 [0xff, 0xff, 0xff])) =
    (some (0xFFFFF80000000000), some 3, some false, some .incomplete) := by decide

theorem test_decL128_first : decoded .w128 (execDecL128 (presented 0 (0) 0 19 [0xbf, 0x80, 0x80, 0x80, 0x80, 0x80, 0x80, 0x80, 0x80, 0x80, 0x80, 0x80, 0x80, 0x80, 0x80, 0x80, 0x80, 0x80, 0x00])) =
    (some (1), some 19, some true, some .ok) := by decide

theorem test_decL128_second : decoded .w128 (execDecL128 (presented 0 (0) 0 1 [0x40])) =
    (some (2 ^ 127), some 1, some true, some .ok) := by decide

theorem test_decR32_first : decoded .w32 (execDecR32 (presented 0 (0) 0 5 [0x9f, 0xff, 0xff, 0xff, 0x7f])) =
    (some (0xFFFFFFFF), some 5, some true, some .ok) := by decide

theorem test_decR32_second : decoded .w32 (execDecR32 (presented 0 (0x12345) 0 0 [])) =
    (some (0x12345), some 0, some false, some .incomplete) := by decide

theorem test_decR64_first : decoded .w64 (execDecR64 (presented 0 (0) 0 5 [0x86, 0xd2, 0x17, 0x55, 0x66])) =
    (some (0x1A917), some 3, some true, some .ok) := by decide

theorem test_decR64_second : decoded .w64 (execDecR64 (presented 0 (0) 0 2 [0x86, 0xd2])) =
    (some (0x352), some 2, some false, some .incomplete) := by decide

theorem test_decR128_first : decoded .w128 (execDecR128 (presented 0 (0) 0 19 [0x87, 0xff, 0xff, 0xff, 0xff, 0xff, 0xff, 0xff, 0xff, 0xff, 0xff, 0xff, 0xff, 0xff, 0xff, 0xff, 0xff, 0xff, 0x7f])) =
    (some (2 ^ 128 - 1), some 19, some true, some .ok) := by decide

theorem test_decR128_second : decoded .w128 (execDecR128 (presented 0 (1) 0 1 [0x01])) =
    (some (0x81), some 1, some true, some .ok) := by decide

/-! ### The step (95 section 2.10, program P7) -/

/-- One request issued, with the operands of P7 step 1. -/
def oneIssued (hasW128 : Bool) (op : SelectWord) : State :=
  { presented 9 0x77 3 3 [0xfa, 0x89, 0x00] with cfg := ⟨hasW128⟩, issued := [⟨op, lanes 9, lanes 0x77, 3, 3, 0x40⟩] }

theorem test_step_reserved : decoded .w64 (step (oneIssued true 0x03)) = (some 0x77, some 0, some false, some .illegalOp) ∧
    decoded .w128 (step (oneIssued false 0x16)) = (some 0x77, some 0, some false, some .illegalOp) := by decide

/-- P7 step 3 with the accumulator 0x77 still on the port (R148). -/
theorem test_step_decR128 : decoded .w128 (step (oneIssued true 0x16)) = (some (0x77 * 2 ^ 21 + 0x1E8480), some 3, some true, some .ok) := by decide

theorem test_fetch_word_is_performed : countStatus (step (State.reset.withFetchWord 8 0x04)) = (some 1, some .ok) := by decide

theorem test_accesses_of_dec : (match execDecR64 (presented 0 0 0 5 [0x86, 0xd2, 0x17, 0x55]) with | .next t => t.accesses | _ => []) =
    [.read 0, .read 1, .read 2] := by decide

theorem test_reset_memory_wf : Memory.wf State.reset.mem = true := by decide

theorem test_write_keeps_canonical_form : Memory.write [(3, 0xaa), (7, 0xbb)] 5 0x11 = [(3, 0xaa), (5, 0x11), (7, 0xbb)] ∧
    Memory.write [(3, 0xaa), (7, 0xbb)] 3 0x00 = [(7, 0xbb)] := by decide

/-! ### Witnesses: the hypotheses of each statement, met together, at the ends of their ranges -/

theorem witness_DecodeOfEncodeIsTheOperation : Instr.wf ⟨true⟩ .decR128 = true ∧ Instr.wf ⟨false⟩ .decR64 = true := by decide

theorem witness_DecodedWordIsTheEncoding : decode ⟨false⟩ 0b01101#5 = .ok .encR64 ∧ decode ⟨true⟩ 0b10110#5 = .ok .decR128 := by
  decide

theorem witness_SelectWordFieldsAndReservedCodes : (Width.w64 = .w128 → (Config.mk false).hasW128 = true) ∧
    (Width.w128 = .w128 → (Config.mk true).hasW128 = true) := by decide

theorem witness_StepRunsTheDecodedOperation : (oneIssued true 0x16).issued = [⟨0x16, lanes 9, lanes 0x77, 3, 3, 0x40⟩] ∧
    decode (oneIssued true 0x16).cfg 0x16 = .ok .decR128 := by decide

theorem witness_StepOfReservedCodeIsIllegalOp : (oneIssued true 0x03).issued = [⟨0x03, lanes 9, lanes 0x77, 3, 3, 0x40⟩] ∧
    decode (oneIssued true 0x03).cfg 0x03 = .error .reservedFunc ∧
    decode (oneIssued true 0x18).cfg 0x18 = .error .reservedWidth ∧
    decode (oneIssued false 0x10).cfg 0x10 = .error .absentWidth128 := by decide

theorem witness_AbsentWidth128IsIllegalOp : Instr.wf (narrow 1 0 0 0 []).cfg .sizeL128 = false ∧
    Instr.wf (narrow 1 0 0 0 []).cfg .encR128 = false := by decide

theorem witness_EveryStepAnswersANextState : (oneIssued true 0x1F).issued = [⟨0x1F, lanes 9, lanes 0x77, 3, 3, 0x40⟩] := by decide

theorem witness_StepIsIdleWhenNothingIsIssued : State.reset.issued = [] := rfl

/-- Three requests: an ENC, a reserved code, a DEC of what the ENC wrote. -/
def threeIssued : State :=
  { State.reset with
    issued := [⟨0x05, lanes 2000000, lanes 0, 3, 0, 0x40⟩, ⟨0x1F, lanes 0, lanes 5, 0, 0, 0x40⟩,
      ⟨0x06, lanes 0, lanes 0, 0, 3, 0x40⟩] }

theorem witness_RequestsArePerformedInIssueOrder : threeIssued.issued = threeIssued.issued.take 2 ++ threeIssued.issued.drop 2 ∧
    threeIssued.issued = threeIssued.issued ++ [] ∧ threeIssued.issued = [] ++ threeIssued.issued := by decide

theorem test_three_in_order : decoded .w32 (Host.Core.run Sys2Proof.core 3 threeIssued) =
    (some 2000000, some 3, some true, some .ok) := by decide

/-- The lowest set bit at 0, at the top, and in between; and zero. -/
theorem witness_SizeLeftCountsDownToTheLowestSetBit : (Instr.ofFields .size .left .w128).wf (presented 1 0 0 0 []).cfg = true ∧
    (presented 0 0 0 0 []).ports.value.get .w32 = 0 ∧
    ((presented 1 0 0 0 []).ports.value.get .w128).getLsbD 0 = true ∧
    (((presented (2 ^ 31) 0 0 0 []).ports.value.get .w32).getLsbD 31 = true ∧
      ∀ j < 31, ((presented (2 ^ 31) 0 0 0 []).ports.value.get .w32).getLsbD j = false) ∧
    (((presented (2 ^ 127) 0 0 0 []).ports.value.get .w128).getLsbD 127 = true ∧
      ∀ j < 127, ((presented (2 ^ 127) 0 0 0 []).ports.value.get .w128).getLsbD j = false) := by decide

/-- The highest set bit at the top and at 0; and zero. -/
theorem witness_SizeRightCountsUpToTheHighestSetBit : (Instr.ofFields .size .right .w64).wf (narrow 1 0 0 0 []).cfg = true ∧
    (presented 0 0 0 0 []).ports.value.get .w64 = 0 ∧
    (((presented (2 ^ 31) 0 0 0 []).ports.value.get .w32).getLsbD 31 = true ∧
      ∀ j, 31 < j → ((presented (2 ^ 31) 0 0 0 []).ports.value.get .w32).getLsbD j = false) ∧
    (((presented 1 0 0 0 []).ports.value.get .w32).getLsbD 0 = true ∧
      ∀ j, 0 < j → ((presented 1 0 0 0 []).ports.value.get .w32).getLsbD j = false) := by
  refine ⟨by decide, by decide, ⟨by decide, fun j hj => BitVec.getLsbD_of_ge _ _ hj⟩, by decide, fun j hj => ?_⟩
  by_cases h : j < 32
  · exact (by decide : ∀ j < 32, 0 < j → ((presented 1 0 0 0 []).ports.value.get .w32).getLsbD j = false) j h hj
  · exact BitVec.getLsbD_of_ge _ _ (Nat.le_of_not_lt h)

theorem witness_SizeRightIsTheLeastLengthThatFits : 1 ≤ 1 ∧ encodedSize .right 32 0 = 1 ∧ encodedSize .right 32 0x7F = 1 ∧
    encodedSize .right 32 0x80 = 2 := by decide

theorem witness_SizeIsOneMoreThanTheHighestNonzeroGroup : (0x80000000 : BitVec 32) ≠ 0 ∧ (1 : BitVec 128) ≠ 0 := by decide

/-- One byte too few, and exactly enough. -/
theorem witness_EncodeLeftWritesTheGroupsOfTheValue : (Instr.ofFields .enc .left .w32).wf (presented 0x12345678 0 4 0 []).cfg = true ∧
    (presented 0x12345678 0 4 0 []).ports.cap < encodedSize .left 32 ((presented 0x12345678 0 4 0 []).ports.value.get .w32) ∧
    5 = encodedSize .left 32 ((presented 0x12345678 0 5 0 []).ports.value.get .w32) ∧
    5 ≤ (presented 0x12345678 0 5 0 []).ports.cap := by decide

theorem witness_EncodeRightWritesTheGroupsOfTheValue : (Instr.ofFields .enc .right .w64).wf (narrow 0 0 0 0 []).cfg = true ∧
    (narrow 0 0 0 0 []).ports.cap < encodedSize .right 64 ((narrow 0 0 0 0 []).ports.value.get .w64) ∧
    1 = encodedSize .right 64 ((narrow 0 0 1 0 []).ports.value.get .w64) ∧ 1 ≤ (narrow 0 0 1 0 []).ports.cap := by decide

theorem witness_EncodeFailsExactlyBelowTheSize :
    (Instr.ofFields .enc .left .w64).wf (presented 1 0 0 0 []).cfg = true ∧
    (∃ t, exec (Instr.ofFields .enc .left .w64) (presented 1 0 0 0 []) = .next t) ∧
    (presented 1 0 0 0 []).ports.cap = 0 ∧ (presented 1 0 9 0 []).ports.cap < encodedSize .left 64 1 ∧
    (∃ t, exec (Instr.ofFields .enc .left .w64) (presented 1 0 10 0 []) = .next t) ∧
    maxBytes Width.w64.bits ≤ (presented 1 0 10 0 []).ports.cap :=
  ⟨rfl, ⟨_, rfl⟩, rfl, by decide, ⟨_, rfl⟩, by decide⟩

theorem witness_FailedEncodeSucceedsWithALargerBuffer : (Instr.ofFields .enc .right .w32).wf (presented 2000000 0 2 0 []).cfg = true ∧
    (presented 2000000 0 2 0 []).ports.cap < encodedSize .right 32 ((presented 2000000 0 2 0 []).ports.value.get .w32) ∧
    encodedSize .right 32 ((presented 2000000 0 2 0 []).ports.value.get .w32) ≤ 3 := by decide

theorem witness_EncodingMarksItsLastByte : 0 < (encodingOf .left 32 0).length ∧ 4 < (encodingOf .left 32 1).length := by decide

theorem witness_EncodingBeginsWithANonzeroGroup : 2 = (encodingOf .right 32 0x80).length ∧ 2 ≤ 2 ∧
    5 = (encodingOf .left 32 1).length := by decide

/-- A value of each orientation that has a partial group. -/
theorem witness_LongestEncodingBeginsWithThePartialGroup : (encodingOf .right 32 0x10000000).length = maxBytes 32 ∧
    (encodingOf .left 32 8).length = maxBytes 32 ∧ (encodingOf .right 64 0x8000000000000000).length = maxBytes 64 := by decide

theorem witness_EncodingsAcrossWidths : Width.w32.bits ≤ Width.w64.bits ∧ Width.w64.bits ≤ Width.w128.bits ∧
    Width.w32.bits ≤ Width.w32.bits := by decide

/-- The terminator first, last, and absent; no bytes at all. -/
theorem witness_DecodeLeftFoldsBytesToTheTerminator :
    (Instr.ofFields .dec .left .w64).wf (presented 0 7 0 3 [0x05]).cfg = true ∧
    TerminatesAt (presented 0 7 0 3 [0x05]).bufferByte 3 0 ∧ TerminatesAt (presented 0 7 0 3 [0x80, 0xff, 0x05]).bufferByte 3 2 ∧
    Unterminated (presented 0 7 0 3 [0x80, 0xff, 0x85]).bufferByte 3 ∧ Unterminated (presented 0 7 0 0 []).bufferByte 0 := by
  unfold TerminatesAt Unterminated; decide

theorem witness_DecodeRightFoldsBytesToTheTerminator :
    (Instr.ofFields .dec .right .w128).wf (presented 0 7 0 3 [0x05]).cfg = true ∧
    TerminatesAt (presented 0 7 0 3 [0x05]).bufferByte 3 0 ∧ TerminatesAt (presented 0 7 0 3 [0x80, 0xff, 0x05]).bufferByte 3 2 ∧
    Unterminated (presented 0 7 0 3 [0x80, 0xff, 0x85]).bufferByte 3 ∧ Unterminated (presented 0 7 0 0 []).bufferByte 0 := by
  unfold TerminatesAt Unterminated; decide

theorem witness_DecodeLeftAccumulatorInClosedForm :
    (Instr.ofFields .dec .left .w32).wf (presented 0 7 0 3 [0x81, 0x05]).cfg = true ∧
    ∃ t, exec (Instr.ofFields .dec .left .w32) (presented 0 7 0 3 [0x81, 0x05]) = .next t ∧ t.results.count = some 2 :=
  ⟨rfl, _, rfl, by decide⟩

theorem witness_DecodeRightAccumulatorInClosedForm :
    (Instr.ofFields .dec .right .w32).wf (presented 0 7 0 0 []).cfg = true ∧
    (∃ t, exec (Instr.ofFields .dec .right .w32) (presented 0 7 0 0 []) = .next t ∧ t.results.count = some 0) ∧
    ∃ t, exec (Instr.ofFields .dec .right .w32) (presented 0 7 0 2 [0x81, 0x85]) = .next t ∧ t.results.count = some 2 :=
  ⟨rfl, ⟨_, rfl, rfl⟩, _, rfl, by decide⟩

/-- Success, incomplete, and no bytes: `ret` is 2, -2 and 0. -/
theorem witness_SignedCountTellsTheThreeCases :
    (Instr.ofFields .dec .left .w64).wf (presented 0 0 0 2 [0x81, 0x05]).cfg = true ∧
    (∃ t, exec (Instr.ofFields .dec .left .w64) (presented 0 0 0 2 [0x81, 0x05]) = .next t ∧ t.results.term = some true) ∧
    (∃ t, exec (Instr.ofFields .dec .left .w64) (presented 0 0 0 2 [0x81, 0x85]) = .next t ∧ t.results.term = some false) ∧
    ∃ t, exec (Instr.ofFields .dec .left .w64) (presented 0 0 0 0 []) = .next t ∧ t.results.count = some 0 :=
  ⟨rfl, ⟨_, rfl, by decide⟩, ⟨_, rfl, by decide⟩, _, rfl, rfl⟩

/-- Two bytes without a terminator, then the rest; and an empty first piece. -/
theorem witness_DecodeResumesAcrossBuffers :
    (Instr.ofFields .dec .right .w64).wf (presented 0 9 0 0 [0x89, 0xaa, 0x74]).cfg = true ∧
    (∀ j < 2, continues ((presented 0 9 0 0 [0x89, 0xaa, 0x74]).bufferByte j) = true) ∧
    ∀ j < 0, continues ((presented 0 9 0 0 []).bufferByte j) = true := by decide

theorem witness_SplitEncodingDecodesToTheValue : 0 < (encodingOf .left 64 1).length ∧ 9 < (encodingOf .left 64 1).length := by decide

theorem witness_DecodeOfEncodedValueIsTheValue : (Instr.ofFields .enc .left .w64).wf (presented 1 0 10 0 []).cfg = true ∧
    encodedSize .left 64 ((presented 1 0 10 0 []).ports.value.get .w64) ≤ (presented 1 0 10 0 []).ports.cap ∧
    encodedSize .left 64 ((presented 1 0 10 0 []).ports.value.get .w64) ≤ 10 := by decide

theorem witness_BackToBackValuesAreReadBack : (Instr.ofFields .enc .right .w32).wf (presented 2000000 0 4 0 []).cfg = true ∧
    encodedSize .right 32 ((presented 2000000 0 4 0 []).ports.value.get .w32) + encodedSize .right 32 ((lanes 0x7F).get .w32) ≤
      (presented 2000000 0 4 0 []).ports.cap ∧
    encodedSize .right 32 ((presented 2000000 0 4 0 []).ports.value.get .w32) + encodedSize .right 32 ((lanes 0x7F).get .w32) ≤ 4 := by
  decide

theorem witness_EncodeAgreesWithSizeAndIsMinimal : (Instr.ofFields .enc .right .w32).wf (presented 0x80 0 2 0 []).cfg = true ∧
    encodedSize .right 32 ((presented 0x80 0 2 0 []).ports.value.get .w32) ≤ (presented 0x80 0 2 0 []).ports.cap ∧
    (decodeSeq .right 32 0 [0x80, 0x81, 0x00]).acc = 0x80 ∧ (decodeSeq .right 32 0 [0x80, 0x81, 0x00]).count = 3 ∧
    (decodeSeq .right 32 0 [0x80, 0x81, 0x00]).term = true := by decide

theorem witness_DifferentValuesHaveDifferentEncodings : encodingOf .left 32 8 = encodingOf .left 32 (BitVec.ofNat 32 8) := rfl

theorem witness_NoEncodingIsAProperPrefixOfAnother : encodingOf .right 32 2000000 <+: encodingOf .right 32 2000000 := by decide

/-- An ENC that writes three bytes, with addresses on either side of them, and a DEC. -/
theorem witness_OperationsChangeOnlyTheBytesTheyStore :
    (∃ t, exec .encR32 (presented 2000000 0 9 0 []) = .next t ∧ t.results.count = some 3) ∧
    ¬ ((presented 2000000 0 9 0 []).ports.base ≤ 0x3F ∧ 0x3F < (presented 2000000 0 9 0 []).ports.base + 3) ∧
    ¬ ((presented 2000000 0 9 0 []).ports.base ≤ 0x43 ∧ 0x43 < (presented 2000000 0 9 0 []).ports.base + 3) ∧
    (∃ t, exec .decR32 (presented 0 0 0 1 [0x05]) = .next t ∧ t.results.count = some 1) ∧ Instr.func .decR32 ≠ .enc :=
  ⟨⟨_, rfl, by decide⟩, by decide, by decide, ⟨_, rfl, by decide⟩, by decide⟩

theorem witness_BufferAccessesAreTheFirstCountIndices :
    (∃ t, exec .encR32 (presented 0x80 0 2 0 []) = .next t ∧ t.accesses = [.write 0 0x81, .write 1 0x00]) ∧
    (∃ t, exec .decR32 (presented 0 0 0 1 [0x05]) = .next t ∧ t.accesses = [.read 0]) ∧
    ∃ t, exec .sizeR32 (presented 0x80 0 0 0 []) = .next t ∧ t.accesses = [] :=
  ⟨⟨_, rfl, by decide⟩, ⟨_, rfl, by decide⟩, _, rfl, by decide⟩

/-- A DEC of states that differ beyond the bytes read and in what waits, and an ENC into different old bytes. -/
theorem witness_ResultsDependOnlyOnOperandsAndBytesRead :
    { presented 0 0 0 3 [0x81, 0x05, 0x22] with issued := threeIssued.issued }.cfg = (presented 0 0 0 3 [0x81, 0x05, 0x11]).cfg ∧
    { presented 0 0 0 3 [0x81, 0x05, 0x22] with issued := threeIssued.issued }.ports = (presented 0 0 0 3 [0x81, 0x05, 0x11]).ports ∧
    (∃ t, exec .decR32 (presented 0 0 0 3 [0x81, 0x05, 0x11]) = .next t ∧ t.results.count = some 2 ∧
      ∀ j < 2, { presented 0 0 0 3 [0x81, 0x05, 0x22] with issued := threeIssued.issued }.bufferByte j =
        (presented 0 0 0 3 [0x81, 0x05, 0x11]).bufferByte j) ∧
    (presented 0x80 0 2 0 [0xaa, 0xbb]).cfg = (presented 0x80 0 2 0 []).cfg ∧
    (presented 0x80 0 2 0 [0xaa, 0xbb]).ports = (presented 0x80 0 2 0 []).ports ∧
    ∃ t, exec .encR32 (presented 0x80 0 2 0 []) = .next t ∧ t.results.count = some 2 :=
  ⟨rfl, rfl, ⟨_, rfl, by decide, by decide⟩, rfl, rfl, _, rfl, by decide⟩

/-- An operation of each function, the ENC both short of room and with room, the DEC with and without a terminator; and a
reserved code. -/
theorem witness_StatusFollowsTheOtherResults :
    Instr.wf (narrow 1 0 0 0 []).cfg .sizeL64 = true ∧
    (Instr.wf (presented 1 0 4 0 []).cfg .encL32 = true ∧
      countStatus (exec .encL32 (presented 1 0 4 0 [])) = (some 0, some .insufficientCapacity) ∧
      countStatus (exec .encL32 (presented 1 0 5 0 [])) = (some 5, some .ok)) ∧
    (Instr.wf (presented 0 0 0 1 [0x05]).cfg .decR128 = true ∧
      countStatus (exec .decR128 (presented 0 0 0 1 [0x05])) = (some 1, some .ok) ∧
      countStatus (exec .decR128 (presented 0 0 0 1 [0x85])) = (some 1, some .incomplete)) ∧
    (oneIssued true 0x03).issued = [⟨0x03, lanes 9, lanes 0x77, 3, 3, 0x40⟩] ∧
    decode (oneIssued true 0x03).cfg 0x03 = .error .reservedFunc := by decide

/-- Counts at their bounds: the longest SIZE, an ENC that fills its buffer, a DEC that uses all its bytes. -/
theorem witness_CountsStayWithinTheirBounds :
    (∃ t, exec .sizeL128 (presented 1 0 0 0 []) = .next t ∧ t.results.count = some 19) ∧
    (∃ t, exec .encL32 (presented 1 0 5 0 []) = .next t ∧ t.results.count = some 5) ∧
    ∃ t, exec .decL32 (presented 0 0 0 2 [0x80, 0x80]) = .next t ∧ t.results.count = some 2 :=
  ⟨⟨_, rfl, by decide⟩, ⟨_, rfl, by decide⟩, _, rfl, by decide⟩

/-- An ENC into addresses 0x40 to 0x44 and a DEC of the bytes right behind them. -/
theorem witness_DisjointRequestsCommute : Request.Disjoint State.reset.cfg ⟨0x05, lanes 2000000, lanes 0, 5, 0, 0x40⟩
    ⟨0x06, lanes 0, lanes 0, 0, 5, 0x45⟩ := by
  rintro addr
  refine ⟨?_, ?_⟩
  · rintro ⟨⟨i, hi, hf, h1, h2⟩, ⟨i', hi', hf', -, -⟩ | ⟨i', hi', hf', h3, h4⟩⟩
    · cases hi'; cases hf'
    · change addr < 0x45 at h2
      change 0x45 ≤ addr at h3
      omega
  · rintro ⟨⟨i', hi', hf', -, -⟩, -⟩
    cases hi'; cases hf'

theorem witness_EveryStepKeepsTheInvariant : (oneIssued true 0x16).Inv ∧ ∃ t, step (oneIssued true 0x16) = .next t :=
  ⟨by unfold State.Inv; decide, _, rfl⟩

end Sys2Proof.Tests
end

