-- ==== Sys2Proof/Proofs/Scope.lean ====
section
/-! PROOF. The scope family: a step performs the decoded operation (O5), the absent 128-bit operations (O7), and the bounds of
the counts (O44). -/

namespace Sys2Proof.Machine

/-! ### Which operations a build has -/

/-- The build parameter matters to the 128-bit operations only (R6). -/
theorem instr_wf_eq_false_iff (c : Config) (i : Instr) : i.wf c = false ↔ i.width = .w128 ∧ c.hasW128 = false := by
  cases i <;> simp [Instr.wf, Instr.width]

/-! ### Bounds of the counts -/

/-- A size is at most NMAX(W): after NMAX(W) shifts nothing of a W-bit value is left (R69). -/
theorem encodedSize_le_maxBytes (o : Orient) (W : Nat) (v : BitVec W) : encodedSize o W v ≤ maxBytes W := by
  have hpos : 1 ≤ maxBytes W := Nat.le_add_left 1 _
  cases o with
  | left => exact (sizeL_le_iff W v hpos).2 (shiftLeft_maxBytes v)
  | right => exact (sizeR_le_iff W v hpos).2 (shiftRight_maxBytes v)

/-- An ENC counts zero bytes or all `n` of them, and the latter only when they fit (R42, R182). -/
theorem State.encoded_count_le {s : State} {n m : Nat} {bytes : List Byte}
    (h : (s.encoded n bytes).results.count = some m) : m ≤ s.ports.cap ∧ m ≤ n := by
  rcases Nat.lt_or_ge s.ports.cap n with hsmall | hfits
  · rw [State.encoded_small bytes hsmall] at h
    obtain rfl : 0 = m := Option.some.inj h
    exact ⟨Nat.zero_le _, Nat.zero_le _⟩
  · rw [State.encoded_fits bytes hfits] at h
    obtain rfl : n = m := Option.some.inj h
    exact ⟨hfits, le_rfl⟩

/-- A DEC consumes at most the bytes it is given: up to the first terminator among them, or all (R42, R72). -/
theorem State.decodeRun_count_le {W : Nat} (s : State) (fold : BitVec W → Byte → BitVec W) (acc : BitVec W) :
    (s.decodeRun fold acc).count ≤ s.ports.len := by
  rcases terminates_or_not s.bufferByte s.ports.len with ⟨k, hk⟩ | hnone
  · rw [State.decodeRun_terminates fold acc hk]
    exact hk.1
  · rw [State.decodeRun_runs_out fold acc hnone]

end Sys2Proof.Machine

namespace Sys2Proof.Proofs

open Sys2Proof Sys2Proof.Machine

/-- Settles O44, by the cases of `exec_cases`: a reserved code counts zero, and each function has its own bound. -/
theorem countsStayWithinTheirBounds : Obligations.CountsStayWithinTheirBounds := by
  intro i s t n hexec hcount
  obtain ⟨-, rfl⟩ | ⟨-, hf, rfl⟩ | ⟨-, hf, rfl⟩ | ⟨-, hf, rfl⟩ := exec_cases hexec
  · obtain rfl : 0 = n := Option.some.inj hcount
    simp
  · obtain rfl := Option.some.inj hcount
    simp [hf, encodedSize_le_maxBytes]
  · obtain ⟨hcap, hsize⟩ := State.encoded_count_le hcount
    have hmax := hsize.trans (encodedSize_le_maxBytes _ _ _)
    simp [hf, hcap, hmax]
  · obtain rfl := Option.some.inj hcount
    simp [hf, State.decodeRun_count_le]

/-- Settles O5: the head request is accepted, and its select word decodes to `i`. -/
theorem stepRunsTheDecodedOperation : Obligations.StepRunsTheDecodedOperation := by
  intro s r rest i hissued hdec
  calc step s
      _ = (s.accept r rest).perform := step_issued hissued
      _ = exec i (s.accept r rest) := State.perform_ok hdec

/-- Settles O7, by the build parameter's part in `Instr.wf` and the law of the absent operations. -/
theorem absentWidth128IsIllegalOp : Obligations.AbsentWidth128IsIllegalOp := by
  intro i s
  exact ⟨instr_wf_eq_false_iff s.cfg i, exec_absent i s⟩

end Sys2Proof.Proofs
end

/-! PROOF. The state family: reset and what it leaves alone (O11, O12, O47), the frame of every operation (O40), and the
invariant kept by every step (O46). -/

namespace Sys2Proof.Machine

/-! ### The encoding of an orientation -/

theorem encodedSize_pos (o : Orient) (W : Nat) (v : BitVec W) : 1 ≤ encodedSize o W v := by
  cases o with
  | left => exact sizeL_pos W v
  | right => exact sizeR_pos W v

@[simp] theorem encodingOf_length (o : Orient) (W : Nat) (v : BitVec W) :
    (encodingOf o W v).length = encodedSize o W v := by
  cases o with
  | left => exact encodingL_length W v
  | right => exact encodingR_length W v

/-! ### Results that belong together -/

/-- The results of a SIZE or an ENC, with the status that R185 gives to the count. -/
theorem Results.coherent_of_count (n : Nat) :
    Results.coherent ⟨some n, AccLanes.absent, none, some (statusOfCount n)⟩ = true := by
  simp [Results.coherent]

/-- The results of a DEC: a terminator was consumed only if some byte was (R72, R185). -/
theorem Results.coherent_of_term {l : AccLanes} {n : Nat} {tm : Bool} (hone : l.one = true) (hpos : tm = true → 0 < n) :
    Results.coherent ⟨some n, l, some tm, some (statusOfTerm tm)⟩ = true := by
  cases tm with
  | false => simp [Results.coherent, statusOfTerm, hone]
  | true => simp [Results.coherent, statusOfTerm, hone, hpos rfl]

/-- The results of a reserved code (R184). -/
theorem Results.coherent_of_reserved (l : Lanes) :
    Results.coherent ⟨some 0, AccLanes.ofLanes l, some false, some .illegalOp⟩ = true := rfl

theorem AccLanes.one_of (w : Width) (a : BitVec w.bits) : (AccLanes.of w a).one = true := by
  cases w <;> rfl

/-! ### The invariant at the end of an operation -/

theorem State.inv_finish {s : State} {r : Results} {l : List Access} (hmem : s.mem.wf = true) (hres : r.coherent = true)
    (hacc : ∀ a ∈ l, a.inBounds s.ports = true) : (s.finish r l).Inv := ⟨hmem, hres, hacc⟩

theorem State.inv_illegalOp {s : State} (hmem : s.mem.wf = true) : s.illegalOp.Inv :=
  State.inv_finish hmem (Results.coherent_of_reserved _) (by simp)

theorem State.inv_sized {s : State} {n : Nat} (hmem : s.mem.wf = true) (hn : 1 ≤ n) : (s.sized n).Inv := by
  have hst : statusOfCount n = .ok := if_neg (by omega)
  exact State.inv_finish hmem (hst ▸ Results.coherent_of_count n) (by simp)

/-- An ENC writes at the indices below its size, and only when the size is within the capacity (R42). -/
theorem State.inv_encoded {s : State} (bytes : List Byte) (hmem : s.mem.wf = true) :
    (s.encoded bytes.length bytes).Inv := by
  rcases Nat.lt_or_ge s.ports.cap bytes.length with hsmall | hfits
  · rw [State.encoded_small bytes hsmall]
    exact State.inv_finish hmem (Results.coherent_of_count 0) (by simp)
  · rw [State.encoded_fits bytes hfits]
    refine State.inv_finish (storeBytes_wf _ _ _ hmem) (Results.coherent_of_count _) fun a ha => ?_
    rw [storeBytes_accesses] at ha
    obtain ⟨j, hj, rfl⟩ := List.mem_map.1 ha
    have hj : j < bytes.length := List.mem_range.1 hj
    simpa [Access.inBounds] using hj.trans_le hfits

/-- A DEC reads at indices below `len`: up to the first terminator, or all of them (R42, R72). -/
theorem State.inv_decoded {W : Nat} {s : State} {lane : BitVec W → AccLanes} (fold : BitVec W → Byte → BitVec W)
    (acc : BitVec W) (hmem : s.mem.wf = true) (hone : ∀ a, (lane a).one = true) :
    (s.decoded lane (s.decodeRun fold acc)).Inv := by
  have reads_inBounds : ∀ n ≤ s.ports.len, ∀ a ∈ (List.range n).map Access.read, a.inBounds s.ports = true := by
    intro n hn a ha
    obtain ⟨j, hj, rfl⟩ := List.mem_map.1 ha
    exact decide_eq_true ((List.mem_range.1 hj).trans_le hn)
  rcases terminates_or_not s.bufferByte s.ports.len with ⟨k, hk⟩ | hnone
  · rw [State.decodeRun_terminates fold acc hk]
    exact State.inv_finish hmem (Results.coherent_of_term (hone _) fun _ => k.succ_pos) (reads_inBounds _ hk.1)
  · rw [State.decodeRun_runs_out fold acc hnone]
    exact State.inv_finish hmem (Results.coherent_of_term (hone _) nofun) (reads_inBounds _ le_rfl)

/-- Every operation ends in the invariant when memory was canonical: it replaces the results and the accesses, so those of
the operation before it do not matter. -/
theorem exec_inv {i : Instr} {s t : State} (hmem : s.mem.wf = true) (h : exec i s = .next t) : t.Inv := by
  obtain ⟨-, rfl⟩ | ⟨-, -, rfl⟩ | ⟨-, -, rfl⟩ | ⟨-, -, rfl⟩ := exec_cases h
  · exact State.inv_illegalOp hmem
  · exact State.inv_sized hmem (encodedSize_pos _ _ _)
  · rw [← encodingOf_length]
    exact State.inv_encoded _ hmem
  · exact State.inv_decoded _ _ hmem (AccLanes.one_of _)

theorem State.perform_inv {s t : State} (hmem : s.mem.wf = true) (h : s.perform = .next t) : t.Inv := by
  cases hdec : decode s.cfg s.ports.op with
  | ok i => exact exec_inv hmem (State.perform_ok hdec ▸ h)
  | error e =>
    rw [State.perform_error hdec] at h
    cases h
    exact State.inv_illegalOp hmem

/-! ### What an operation leaves of memory -/

/-- Only an ENC writes (R41). -/
theorem exec_mem_of_not_enc {i : Instr} {s t : State} (h : exec i s = .next t) (hf : i.func ≠ .enc) : t.mem = s.mem := by
  obtain ⟨-, rfl⟩ | ⟨-, -, rfl⟩ | ⟨-, henc, -⟩ | ⟨-, -, rfl⟩ := exec_cases h
  · rfl
  · rfl
  · exact absurd henc hf
  · rfl

/-- An ENC changes no byte but the `count` ones it stores: none when it fails, all of the encoding otherwise (R46, R182). -/
theorem State.encoded_read_outside {s : State} {bytes : List Byte} {n a : Nat}
    (hcount : (s.encoded bytes.length bytes).results.count = some n)
    (ha : ¬ (s.ports.base ≤ a ∧ a < s.ports.base + n)) :
    (s.encoded bytes.length bytes).mem.read a = s.mem.read a := by
  rcases Nat.lt_or_ge s.ports.cap bytes.length with hsmall | hfits
  · rw [State.encoded_small bytes hsmall]
    rfl
  · rw [State.encoded_fits bytes hfits] at hcount ⊢
    obtain rfl : bytes.length = n := Option.some.inj hcount
    rw [State.finish_mem, storeBytes_read]
    exact if_neg ha

/-- Outside the first `count` bytes of its buffer no operation changes a byte. -/
theorem exec_read_outside {i : Instr} {s t : State} {n a : Nat} (h : exec i s = .next t)
    (hcount : t.results.count = some n) (ha : ¬ (s.ports.base ≤ a ∧ a < s.ports.base + n)) :
    t.mem.read a = s.mem.read a := by
  obtain ⟨-, rfl⟩ | ⟨-, -, rfl⟩ | ⟨-, -, rfl⟩ | ⟨-, -, rfl⟩ := exec_cases h
  · rfl
  · rfl
  · rw [← encodingOf_length] at hcount ⊢
    exact State.encoded_read_outside hcount ha
  · rfl

/-! ### An operation after reset -/

/-- The end of an operation replaces all that reset clears. -/
theorem State.applyReset_finish (s : State) (r : Results) (l : List Access) : s.applyReset.finish r l = s.finish r l := rfl

theorem State.applyReset_encoded (s : State) (n : Nat) (bytes : List Byte) :
    s.applyReset.encoded n bytes = s.encoded n bytes := by
  rcases Nat.lt_or_ge s.ports.cap n with hsmall | hfits
  · rw [State.encoded_small bytes hsmall, State.encoded_small bytes (s := s.applyReset) hsmall, State.applyReset_finish]
  · rw [State.encoded_fits bytes hfits, State.encoded_fits bytes (s := s.applyReset) hfits]
    rfl

/-- No operation reads what reset clears, the results and the record of accesses. -/
theorem exec_applyReset (i : Instr) (s : State) : exec i s.applyReset = exec i s := by
  cases hw : i.wf s.cfg with
  | false => rw [exec_absent i s hw, exec_absent i s.applyReset hw]; rfl
  | true =>
    obtain ⟨f, o, w, rfl⟩ := instr_exists_fields i
    cases f with
    | size => rw [exec_size o w s hw, exec_size o w s.applyReset hw]; rfl
    | enc => rw [exec_enc o w s hw, exec_enc o w s.applyReset hw, State.applyReset_encoded]; rfl
    | dec => rw [exec_dec o w s hw, exec_dec o w s.applyReset hw]; rfl

end Sys2Proof.Machine

namespace Sys2Proof.Proofs

open Sys2Proof Sys2Proof.Machine

/-- Settles O46: an idle step changes nothing, and any other performs the head request on the same canonical memory. -/
theorem everyStepKeepsTheInvariant : Obligations.EveryStepKeepsTheInvariant := by
  intro s t hinv hstep
  obtain ⟨hmem, hres, hacc⟩ := hinv
  cases hissued : s.issued with
  | nil =>
    rw [step_idle hissued] at hstep
    cases hstep
    exact ⟨hmem, hres, hacc⟩
  | cons r rest =>
    rw [step_issued hissued] at hstep
    exact State.perform_inv (s := s.accept r rest) hmem hstep

/-- Settles O40: the ports and parameters are kept, only an ENC writes, and it writes its first `count` bytes. -/
theorem operationsChangeOnlyTheBytesTheyStore : Obligations.OperationsChangeOnlyTheBytesTheyStore := by
  intro i s t hexec
  obtain ⟨hcfg, hissued, hports⟩ := exec_kept hexec
  refine ⟨hcfg, hissued, hports, fun hf a => ?_, fun n hcount a ha => exec_read_outside hexec hcount ha⟩
  rw [exec_mem_of_not_enc hexec hf]

/-- Settles O11: the reset state drives nothing and, with nothing issued, its step is idle. -/
theorem resetDrivesNoResult : Obligations.ResetDrivesNoResult := fun _ => ⟨rfl, rfl, rfl, step_idle rfl⟩

/-- Settles O12: reset clears only what no operation reads. -/
theorem firstOperationAfterResetIsLikeAnyOther : Obligations.FirstOperationAfterResetIsLikeAnyOther :=
  fun i s => ⟨State.applyReset_mem s, State.applyReset_ports s, State.applyReset_results s, exec_applyReset i s⟩

/-- Settles O47: no cell is listed, no result is driven and no access is recorded. -/
theorem invariantHoldsAtReset : Obligations.InvariantHoldsAtReset :=
  fun _ => ⟨rfl, rfl, List.forall_mem_nil _⟩

end Sys2Proof.Proofs

/-! PROOF. The memory family: the buffer accesses of an operation (O41), an encoding in memory and its decode (O36), and the
requests performed one after another: their order (O10) and those on disjoint buffers (O45). -/

namespace Sys2Proof.Machine

/-! ### The encoding of a value, in either orientation -/

theorem seven_le_bits (w : Width) : 7 ≤ w.bits := by
  cases w <;> decide

theorem encodingOf_eq_emitGroups (o : Orient) (W : Nat) (v : BitVec W) :
    encodingOf o W v = emitGroups (groupOf o W v) (encodedSize o W v) := by
  cases o <;> rfl

/-- A group is 7 bits wide, in either orientation (R63, R64). -/
theorem continues_groupOf (o : Orient) {W : Nat} (hW : 7 ≤ W) (v : BitVec W) (k : Nat) :
    continues (groupOf o W v k) = false := by
  cases o with
  | left => exact continues_groupL hW v k
  | right => exact continues_groupR hW v k

/-- Every byte of an encoding but the last has its continuation bit set (R62). -/
theorem continues_encodingOf (o : Orient) {W : Nat} (hW : 7 ≤ W) (v : BitVec W) {i : Nat} (hi : i < encodedSize o W v) :
    continues ((encodingOf o W v).getD i 0) = decide (i + 1 < encodedSize o W v) := by
  rw [encodingOf_eq_emitGroups, emitGroups_getD _ hi]
  exact continues_packByte _ (continues_groupOf o hW v _)

/-- The size is a number of shifts that leaves nothing of the value, so folding its groups into zero gives the value. -/
theorem foldl_encodingOf (o : Orient) {W : Nat} (hW : 7 ≤ W) (v : BitVec W) :
    (encodingOf o W v).foldl (stepOf o W) 0 = v := by
  cases o with
  | left =>
    have hshift : v <<< (7 * sizeL W v) = 0 := (sizeL_le_iff W v (sizeL_pos W v)).1 le_rfl
    exact hshift ▸ foldL_groups hW v (sizeL W v)
  | right =>
    have hshift : v >>> (7 * sizeR W v) = 0 := (sizeR_le_iff W v (sizeR_pos W v)).1 le_rfl
    exact hshift ▸ foldR_groups hW v (sizeR W v)

/-! ### A buffer that begins with an encoding -/

/-- Memory holds these bytes from an address on: `State.Holds` (`holds_iff_holdsAt`) for a buffer anywhere in memory. -/
def Memory.HoldsAt (m : Memory) (base : Nat) (S : List Byte) : Prop := ∀ i < S.length, m.read (base + i) = S.getD i 0

theorem State.holds_iff_holdsAt (s : State) (S : List Byte) : s.Holds S ↔ s.mem.HoldsAt s.ports.base S := Iff.rfl

theorem Memory.HoldsAt.of_read {m m' : Memory} {base : Nat} {S : List Byte} (h : m.HoldsAt base S)
    (hread : ∀ i < S.length, m'.read (base + i) = m.read (base + i)) : m'.HoldsAt base S :=
  fun i hi => (hread i hi).trans (h i hi)

theorem State.Holds.map_bufferByte {s : State} {S : List Byte} (h : s.Holds S) :
    (List.range S.length).map s.bufferByte = S := by
  refine List.ext_getElem (by simp) fun i _ hi => ?_
  simp [h i hi, hi]

/-- The first terminator of a buffer that begins with an encoding is the encoding's last byte. -/
theorem State.Holds.terminatesAt {o : Orient} {W : Nat} (hW : 7 ≤ W) {v : BitVec W} {s : State}
    (h : s.Holds (encodingOf o W v)) (hlen : encodedSize o W v ≤ s.ports.len) :
    TerminatesAt s.bufferByte s.ports.len (encodedSize o W v - 1) := by
  have hpos := encodedSize_pos o W v
  have hbit : ∀ i < encodedSize o W v, continues (s.bufferByte i) = decide (i + 1 < encodedSize o W v) := by
    intro i hi
    rw [h i (by simpa using hi)]
    exact continues_encodingOf o hW v hi
  refine ⟨by omega, ?_, fun j hj => ?_⟩
  · rw [hbit _ (by omega)]
    exact decide_eq_false (by omega)
  · rw [hbit j (by omega)]
    exact decide_eq_true (by omega)

/-- A DEC from a zero accumulator of a buffer that begins with an encoding: it gives the value and consumes the encoding. -/
theorem State.Holds.decodeRun {o : Orient} {W : Nat} (hW : 7 ≤ W) {v : BitVec W} {s : State}
    (h : s.Holds (encodingOf o W v)) (hlen : encodedSize o W v ≤ s.ports.len) :
    s.decodeRun (stepOf o W) 0 =
      ⟨v, encodedSize o W v, true, (List.range (encodedSize o W v)).map Access.read⟩ := by
  have hmap : (List.range (encodedSize o W v)).map s.bufferByte = encodingOf o W v := by
    simpa using h.map_bufferByte
  rw [State.decodeRun_terminates _ _ (h.terminatesAt hW hlen), Nat.sub_add_cancel (encodedSize_pos o W v), hmap,
    foldl_encodingOf o hW v]

@[simp] theorem Lanes.get_zeroLanes (w : Width) : zeroLanes.get w = 0 := by
  cases w <;> rfl

theorem exec_dec_of_holdsAt {o : Orient} {w : Width} {v : BitVec w.bits} {s : State}
    (hwf : (Instr.ofFields .dec o w).wf s.cfg = true) (hacc : s.ports.accIn = zeroLanes)
    (h : s.mem.HoldsAt s.ports.base (encodingOf o w.bits v)) (hlen : encodedSize o w.bits v ≤ s.ports.len) :
    ∃ t, exec (Instr.ofFields .dec o w) s = .next t ∧ t.mem = s.mem ∧
      t.results = ⟨some (encodedSize o w.bits v), AccLanes.of w v, some true, some .ok⟩ ∧
      t.accesses = (List.range (encodedSize o w.bits v)).map Access.read := by
  refine ⟨_, exec_dec o w s hwf, rfl, ?_⟩
  rw [hacc, Lanes.get_zeroLanes, State.Holds.decodeRun (seven_le_bits w) ((s.holds_iff_holdsAt _).2 h) hlen]
  exact ⟨rfl, rfl⟩

/-! ### An ENC with room enough -/

/-- Whether an operation exists does not depend on its function (R6). -/
theorem wf_dec_of_wf_enc {o : Orient} {w : Width} {c : Config} (h : (Instr.ofFields .enc o w).wf c = true) :
    (Instr.ofFields .dec o w).wf c = true := by
  cases o <;> cases w <;> exact h

/-- An ENC with room enough reports the size, and the encoding then stands at its buffer's address (R106, R136). -/
theorem exec_enc_fits {o : Orient} {w : Width} {s : State} (hwf : (Instr.ofFields .enc o w).wf s.cfg = true)
    (hcap : encodedSize o w.bits (s.ports.value.get w) ≤ s.ports.cap) :
    ∃ t, exec (Instr.ofFields .enc o w) s = .next t ∧
      t.results = ⟨some (encodedSize o w.bits (s.ports.value.get w)), AccLanes.absent, none, some .ok⟩ ∧
      t.mem.HoldsAt s.ports.base (encodingOf o w.bits (s.ports.value.get w)) := by
  have hst : statusOfCount (encodedSize o w.bits (s.ports.value.get w)) = .ok :=
    if_neg (Nat.ne_of_gt (encodedSize_pos o w.bits _))
  refine ⟨_, exec_enc o w s hwf, ?_, fun i hi => ?_⟩
  · rw [State.encoded_fits _ hcap, State.finish_results, hst]
  · rw [State.encoded_fits _ hcap, State.finish_mem, storeBytes_read, if_pos (by omega)]
    simp

/-- An ENC leaves the bytes in front of its buffer as they are. -/
theorem exec_keeps_holdsAt_in_front {i : Instr} {s t : State} {n base : Nat} {S : List Byte} (h : exec i s = .next t)
    (hcount : t.results.count = some n) (hS : s.mem.HoldsAt base S) (hbase : s.ports.base = base + S.length) :
    t.mem.HoldsAt base S :=
  hS.of_read fun _ _ => exec_read_outside h hcount (by omega)

/-! ### The next request on a stream (R207) -/

@[simp] theorem Request.following_accIn (r : Request) (o : Results) : (r.following o).accIn = zeroLanes := rfl

theorem Request.following_base (r : Request) {o : Results} {n : Nat} (h : o.count = some n) :
    (r.following o).base = r.base + n := by
  simp [Request.following, h]

theorem Request.following_cap (r : Request) {o : Results} {n : Nat} (h : o.count = some n) :
    (r.following o).cap = r.cap - n := by
  simp [Request.following, h]

theorem Request.following_len (r : Request) {o : Results} {n : Nat} (h : o.count = some n) :
    (r.following o).len = r.len - n := by
  simp [Request.following, h]

/-! ### Two values back to back -/

/-- The second of two ENC stores right behind the bytes of the first and keeps them. -/
theorem exec_enc_back_to_back {o : Orient} {w : Width} {s : State} {second : Lanes}
    (hwf : (Instr.ofFields .enc o w).wf s.cfg = true)
    (hcap : encodedSize o w.bits (s.ports.value.get w) + encodedSize o w.bits (second.get w) ≤ s.ports.cap) :
    ∃ t1 t2, exec (Instr.ofFields .enc o w) s = .next t1 ∧
      exec (Instr.ofFields .enc o w) (t1.present { t1.ports.following t1.results with value := second }) = .next t2 ∧
      t2.results.status = some .ok ∧ t2.cfg = s.cfg ∧
      t2.mem.HoldsAt s.ports.base (encodingOf o w.bits (s.ports.value.get w)) ∧
      t2.mem.HoldsAt (s.ports.base + encodedSize o w.bits (s.ports.value.get w)) (encodingOf o w.bits (second.get w)) := by
  obtain ⟨t1, h1, hres1, hheld⟩ := exec_enc_fits (s := s) hwf (by omega)
  obtain ⟨hcfg1, -, hports1⟩ := exec_kept h1
  have hcount1 := congrArg Results.count hres1
  have hbase2 : (t1.ports.following t1.results).base = s.ports.base + encodedSize o w.bits (s.ports.value.get w) := by
    rw [Request.following_base _ hcount1, hports1]
  have hcap2 : encodedSize o w.bits (second.get w) ≤ (t1.ports.following t1.results).cap := by
    rw [Request.following_cap _ hcount1, hports1]
    omega
  obtain ⟨t2, h2, hres2, hsecond⟩ :=
    exec_enc_fits (s := t1.present { t1.ports.following t1.results with value := second }) (hcfg1 ▸ hwf) hcap2
  obtain ⟨hcfg2, -, -⟩ := exec_kept h2
  have hfirst := exec_keeps_holdsAt_in_front h2 (congrArg Results.count hres2) hheld
    (by rw [encodingOf_length]; exact hbase2)
  exact ⟨t1, t2, h1, h2, by rw [hres2], hcfg2.trans hcfg1, hfirst, hbase2 ▸ hsecond⟩

/-- Two DEC over two encodings that stand back to back: the second begins where the first ended. -/
theorem exec_dec_back_to_back {o : Orient} {w : Width} {s : State} {v v' : BitVec w.bits}
    (hwf : (Instr.ofFields .dec o w).wf s.cfg = true) (hacc : s.ports.accIn = zeroLanes)
    (hfirst : s.mem.HoldsAt s.ports.base (encodingOf o w.bits v))
    (hsecond : s.mem.HoldsAt (s.ports.base + encodedSize o w.bits v) (encodingOf o w.bits v'))
    (hlen : encodedSize o w.bits v + encodedSize o w.bits v' ≤ s.ports.len) :
    ∃ u1 u2, exec (Instr.ofFields .dec o w) s = .next u1 ∧
      u1.results.accOut = AccLanes.of w v ∧ u1.results.term = some true ∧
      exec (Instr.ofFields .dec o w) (u1.present (u1.ports.following u1.results)) = .next u2 ∧
      u2.results.accOut = AccLanes.of w v' ∧ u2.results.term = some true := by
  obtain ⟨u1, h1, hmem1, hres1, -⟩ := exec_dec_of_holdsAt hwf hacc hfirst (by omega)
  obtain ⟨hcfg1, -, hports1⟩ := exec_kept h1
  have hcount1 := congrArg Results.count hres1
  have hheld : u1.mem.HoldsAt (u1.ports.following u1.results).base (encodingOf o w.bits v') := by
    rw [Request.following_base _ hcount1, hports1, hmem1]
    exact hsecond
  have hlen2 : encodedSize o w.bits v' ≤ (u1.ports.following u1.results).len := by
    rw [Request.following_len _ hcount1, hports1]
    exact Nat.le_sub_of_add_le' hlen
  obtain ⟨u2, h2, -, hres2, -⟩ := exec_dec_of_holdsAt (s := u1.present (u1.ports.following u1.results)) (hcfg1 ▸ hwf)
    (Request.following_accIn _ _) hheld hlen2
  exact ⟨u1, u2, h1, by rw [hres1], by rw [hres1], h2, by rw [hres2], by rw [hres2]⟩

/-! ### The buffer accesses of an operation -/

/-- An ENC of an encoding writes its first `count` indices, in order (R45). -/
theorem State.encoded_accesses (s : State) (bytes : List Byte) :
    ∃ n, (s.encoded bytes.length bytes).results.count = some n ∧
      (s.encoded bytes.length bytes).accesses = (List.range n).map fun j => Access.write j (bytes.getD j 0) := by
  rcases Nat.lt_or_ge s.ports.cap bytes.length with hsmall | hfits
  · exact ⟨0, by rw [State.encoded_small bytes hsmall]; exact ⟨rfl, rfl⟩⟩
  · refine ⟨bytes.length, ?_⟩
    rw [State.encoded_fits bytes hfits, State.finish_accesses, storeBytes_accesses]
    exact ⟨rfl, by simp only [Nat.zero_add]⟩

/-- A DEC reads the first `count` indices, in order (R45). -/
theorem State.decodeRun_accesses {W : Nat} (s : State) (fold : BitVec W → Byte → BitVec W) (acc : BitVec W) :
    (s.decodeRun fold acc).accesses = (List.range (s.decodeRun fold acc).count).map Access.read := by
  rcases terminates_or_not s.bufferByte s.ports.len with ⟨k, hk⟩ | hnone
  · rw [State.decodeRun_terminates fold acc hk]
  · rw [State.decodeRun_runs_out fold acc hnone]

/-- The accesses of every operation, said once: SIZE makes none, ENC writes and DEC reads the first `count` indices. An
operation the build does not have counts zero and makes none. -/
theorem exec_accesses {i : Instr} {s t : State} (h : exec i s = .next t) :
    ∃ n, t.results.count = some n ∧
      ((i.func = .size ∧ t.accesses = []) ∨
        (i.func = .enc ∧ ∃ bytes : List Byte, t.accesses = (List.range n).map fun j => Access.write j (bytes.getD j 0)) ∨
        (i.func = .dec ∧ t.accesses = (List.range n).map Access.read)) := by
  obtain ⟨-, rfl⟩ | ⟨-, hf, rfl⟩ | ⟨-, hf, rfl⟩ | ⟨-, hf, rfl⟩ := exec_cases h
  · refine ⟨0, rfl, ?_⟩
    cases i.func with
    | size => exact .inl ⟨rfl, rfl⟩
    | enc => exact .inr (.inl ⟨rfl, [], rfl⟩)
    | dec => exact .inr (.inr ⟨rfl, rfl⟩)
  · exact ⟨_, rfl, .inl ⟨hf, rfl⟩⟩
  · rw [← encodingOf_length]
    obtain ⟨n, hcount, hacc⟩ := State.encoded_accesses s (encodingOf i.orient i.width.bits (s.ports.value.get i.width))
    exact ⟨n, hcount, .inr (.inl ⟨hf, _, hacc⟩)⟩
  · exact ⟨_, rfl, .inr (.inr ⟨hf, State.decodeRun_accesses _ _ _⟩)⟩

/-! ### Performing one request -/

theorem exec_total (i : Instr) (s : State) : ∃ t, exec i s = .next t := by
  cases i <;> exact ⟨_, rfl⟩

/-- What performing a request can do: the decoded operation, or the in-band refusal of a reserved code (R184, R186). -/
theorem State.perform_cases {s t : State} (h : s.perform = .next t) :
    (∃ i, decode s.cfg s.ports.op = .ok i ∧ exec i s = .next t) ∨
    (∃ e, decode s.cfg s.ports.op = .error e) ∧ t = s.illegalOp := by
  cases hdec : decode s.cfg s.ports.op with
  | ok i => exact .inl ⟨i, rfl, State.perform_ok hdec ▸ h⟩
  | error e =>
    rw [State.perform_error hdec] at h
    cases h
    exact .inr ⟨⟨e, rfl⟩, rfl⟩

theorem State.perform_total (s : State) : ∃ t, s.perform = .next t := by
  cases hdec : decode s.cfg s.ports.op with
  | ok i => exact State.perform_ok hdec ▸ exec_total i s
  | error e => exact ⟨_, State.perform_error hdec⟩

theorem State.perform_kept {s t : State} (h : s.perform = .next t) : s.Kept t := by
  obtain ⟨i, -, hexec⟩ | ⟨-, rfl⟩ := State.perform_cases h
  · exact exec_kept hexec
  · exact State.kept_finish _ _ _

/-- A step that performs the request `r`: it is then on the ports, and the others wait. -/
theorem step_performs {s : State} {r : Request} {rest : List Request} (h : s.issued = r :: rest) :
    ∃ t, step s = .next t ∧ (s.accept r rest).perform = .next t ∧ t.cfg = s.cfg ∧ t.issued = rest ∧ t.ports = r := by
  obtain ⟨t, ht⟩ := (s.accept r rest).perform_total
  obtain ⟨hcfg, hissued, hports⟩ := State.perform_kept ht
  exact ⟨t, (step_issued h).trans ht, ht, hcfg, hissued, hports⟩

/-- A run over the requests `done`: the last of them, if any, is on the ports afterwards. -/
theorem run_performs (done waiting : List Request) {s : State} (h : s.issued = done ++ waiting) :
    ∃ t : State, Host.Core.run Sys2Proof.core done.length s = .next t ∧ t.issued = waiting ∧ t.cfg = s.cfg ∧
      t.ports = done.getLastD s.ports := by
  induction done generalizing s with
  | nil => exact ⟨s, rfl, h, rfl, rfl⟩
  | cons r done ih =>
    obtain ⟨s', hstep, -, hcfg, hissued, hports⟩ := step_performs (rest := done ++ waiting) h
    obtain ⟨t, hrun, htissued, htcfg, htports⟩ := ih hissued
    refine ⟨t, (run_succ done.length hstep).trans hrun, htissued, htcfg.trans hcfg, ?_⟩
    rw [htports, hports, List.getLastD_cons]

/-! ### What a request stores -/

/-- The bytes an operation stores from index 0 of its buffer on: those of an ENC that exists and has room enough. -/
def Request.storedBy (c : Config) (r : Request) (i : Instr) : List Byte :=
  if i.wf c = true ∧ i.func = .enc ∧ encodedSize i.orient i.width.bits (r.value.get i.width) ≤ r.cap then
    encodingOf i.orient i.width.bits (r.value.get i.width)
  else []

/-- The bytes a request stores from index 0 of its buffer on. They depend on the build and the operands only. -/
def Request.stored (c : Config) (r : Request) : List Byte :=
  match decode c r.op with
  | .ok i => r.storedBy c i
  | .error _ => []

theorem Request.stored_ok {c : Config} {r : Request} {i : Instr} (h : decode c r.op = .ok i) :
    r.stored c = r.storedBy c i := by
  simp [Request.stored, h]

theorem Request.stored_error {c : Config} {r : Request} {e : DecodeError} (h : decode c r.op = .error e) :
    r.stored c = [] := by
  simp [Request.stored, h]

/-- Storing no byte changes no memory. -/
theorem storeBytes_nil (base : Nat) (m : Memory) (i : Nat) : (storeBytes base m i []).mem = m := rfl

theorem exec_mem {i : Instr} {s t : State} (h : exec i s = .next t) :
    t.mem = (storeBytes s.ports.base s.mem 0 (s.ports.storedBy s.cfg i)).mem := by
  obtain ⟨hwf, rfl⟩ | ⟨-, hf, rfl⟩ | ⟨hwf, hf, rfl⟩ | ⟨-, hf, rfl⟩ := exec_cases h
  · simp [Request.storedBy, hwf, storeBytes_nil]
  · simp [Request.storedBy, hf, storeBytes_nil]
  · rcases Nat.lt_or_ge s.ports.cap (encodedSize i.orient i.width.bits (s.ports.value.get i.width)) with hsmall | hfits
    · rw [State.encoded_small _ hsmall, Request.storedBy, if_neg fun ⟨_, _, hfits⟩ => Nat.not_le.2 hsmall hfits]
      rfl
    · rw [State.encoded_fits _ hfits, Request.storedBy, if_pos ⟨hwf, hf, hfits⟩, State.finish_mem]
  · simp [Request.storedBy, hf, storeBytes_nil]

/-- Performing a request stores its bytes and changes no other address. -/
theorem State.perform_read {s t : State} (h : s.perform = .next t) (a : Nat) :
    t.mem.read a =
      if s.ports.base ≤ a ∧ a < s.ports.base + (s.ports.stored s.cfg).length then
        (s.ports.stored s.cfg).getD (a - s.ports.base) 0 else s.mem.read a := by
  have hmem : t.mem = (storeBytes s.ports.base s.mem 0 (s.ports.stored s.cfg)).mem := by
    obtain ⟨i, hdec, hexec⟩ | ⟨⟨e, hdec⟩, rfl⟩ := State.perform_cases h
    · rw [Request.stored_ok hdec]
      exact exec_mem hexec
    · rw [Request.stored_error hdec]
      rfl
  rw [hmem, storeBytes_read, Nat.add_zero]

/-- A request stores only at addresses it may write (R42). -/
theorem Request.mayWrite_of_stored {c : Config} {r : Request} {a : Nat}
    (h : r.base ≤ a ∧ a < r.base + (r.stored c).length) : r.MayWrite c a := by
  obtain ⟨hbase, hlt⟩ := h
  cases hdec : decode c r.op with
  | error e =>
    rw [Request.stored_error hdec, List.length_nil] at hlt
    omega
  | ok i =>
    rw [Request.stored_ok hdec, Request.storedBy] at hlt
    split at hlt
    case isTrue hall =>
      obtain ⟨-, hf, hcap⟩ := hall
      rw [encodingOf_length] at hlt
      exact ⟨i, hdec, hf, hbase, by omega⟩
    case isFalse =>
      rw [List.length_nil] at hlt
      omega

theorem State.perform_read_of_not_mayWrite {s t : State} (h : s.perform = .next t) {a : Nat}
    (ha : ¬ s.ports.MayWrite s.cfg a) : t.mem.read a = s.mem.read a := by
  rw [State.perform_read h, if_neg fun hin => ha (Request.mayWrite_of_stored hin)]

/-- What a request leaves at an address depends on the build, the operands and the byte that stood there. -/
theorem State.perform_read_congr {s s' t t' : State} {a : Nat} (hcfg : s'.cfg = s.cfg) (hports : s'.ports = s.ports)
    (hread : s'.mem.read a = s.mem.read a) (h : s.perform = .next t) (h' : s'.perform = .next t') :
    t'.mem.read a = t.mem.read a := by
  rw [State.perform_read h, State.perform_read h', hcfg, hports, hread]

/-! ### What the results of a request depend on -/

/-- The decoder's loop depends on the bytes below its bound only. -/
theorem decodeLoop_congr {W : Nat} (fold : BitVec W → Byte → BitVec W) {byteAt byteAt' : Nat → Byte} (left i : Nat)
    (acc : BitVec W) (h : ∀ j < i + left, byteAt' j = byteAt j) :
    decodeLoop fold byteAt' left i acc = decodeLoop fold byteAt left i acc := by
  induction left generalizing i acc with
  | zero => rfl
  | succ left ih =>
    simp only [decodeLoop, h i (by omega), ih (i + 1) _ fun j hj => h j (by omega)]

theorem State.encoded_congr {s s' : State} (hports : s'.ports = s.ports) (n : Nat) (bytes : List Byte) :
    (s'.encoded n bytes).results = (s.encoded n bytes).results ∧
      (s'.encoded n bytes).accesses = (s.encoded n bytes).accesses := by
  rcases Nat.lt_or_ge s.ports.cap n with hsmall | hfits
  · rw [State.encoded_small bytes hsmall, State.encoded_small bytes (hports ▸ hsmall)]
    exact ⟨rfl, rfl⟩
  · rw [State.encoded_fits bytes hfits, State.encoded_fits bytes (hports ▸ hfits)]
    exact ⟨rfl, by simp only [State.finish_accesses, storeBytes_accesses]⟩

/-- The results and accesses of an operation depend on the build, the operands and, for a DEC, the bytes below `len`. -/
theorem exec_congr {i : Instr} {s s' t t' : State} (hcfg : s'.cfg = s.cfg) (hports : s'.ports = s.ports)
    (hbytes : i.func = .dec → ∀ j < s.ports.len, s'.bufferByte j = s.bufferByte j)
    (h : exec i s = .next t) (h' : exec i s' = .next t') : t'.results = t.results ∧ t'.accesses = t.accesses := by
  cases hwf : i.wf s.cfg with
  | false =>
    rw [exec_absent i s hwf] at h
    rw [exec_absent i s' (hcfg ▸ hwf)] at h'
    cases h; cases h'
    simp [hports]
  | true =>
    have hwf' : i.wf s'.cfg = true := hcfg ▸ hwf
    obtain ⟨f, o, w, rfl⟩ := instr_exists_fields i
    cases f with
    | size =>
      rw [exec_size o w s hwf] at h
      rw [exec_size o w s' hwf'] at h'
      cases h; cases h'
      simp [hports]
    | enc =>
      rw [exec_enc o w s hwf] at h
      rw [exec_enc o w s' hwf'] at h'
      cases h; cases h'
      rw [hports]
      exact State.encoded_congr hports _ _
    | dec =>
      have hdec : (Instr.ofFields .dec o w).func = .dec := by cases o <;> cases w <;> rfl
      have hrun : s'.decodeRun (stepOf o w.bits) (s'.ports.accIn.get w) =
          s.decodeRun (stepOf o w.bits) (s.ports.accIn.get w) := by
        rw [State.decodeRun, hports]
        exact decodeLoop_congr _ _ _ _ fun j hj => hbytes hdec j (by omega)
      rw [exec_dec o w s hwf] at h
      rw [exec_dec o w s' hwf', hrun] at h'
      cases h; cases h'
      exact ⟨rfl, rfl⟩

/-- The results and accesses of a request depend on the build, the operands and the bytes it may read. -/
theorem State.perform_congr {s s' t t' : State} (hcfg : s'.cfg = s.cfg) (hports : s'.ports = s.ports)
    (hread : ∀ a, s.ports.MayRead s.cfg a → s'.mem.read a = s.mem.read a)
    (h : s.perform = .next t) (h' : s'.perform = .next t') : t'.results = t.results ∧ t'.accesses = t.accesses := by
  cases hdec : decode s.cfg s.ports.op with
  | error e =>
    have hdec' : decode s'.cfg s'.ports.op = .error e := by rw [hcfg, hports, hdec]
    rw [State.perform_error hdec] at h
    rw [State.perform_error hdec'] at h'
    cases h; cases h'
    simp [hports]
  | ok i =>
    have hdec' : decode s'.cfg s'.ports.op = .ok i := by rw [hcfg, hports, hdec]
    rw [State.perform_ok hdec] at h
    rw [State.perform_ok hdec'] at h'
    refine exec_congr hcfg hports (fun hf j hj => ?_) h h'
    rw [State.bufferByte, State.bufferByte, hports]
    exact hread _ ⟨i, hdec, hf, by omega, by omega⟩

/-! ### Two requests on disjoint buffers -/

theorem Request.Disjoint.symm {c : Config} {p q : Request} (h : p.Disjoint c q) : q.Disjoint c p :=
  fun a => (h a).symm

theorem Request.Disjoint.not_mayWrite_of_mayRead {c : Config} {p q : Request} (h : p.Disjoint c q) {a : Nat}
    (hq : q.MayRead c a) : ¬ p.MayWrite c a :=
  fun hp => (h a).1 ⟨hp, .inr hq⟩

theorem Request.Disjoint.not_both_mayWrite {c : Config} {p q : Request} (h : p.Disjoint c q) {a : Nat}
    (hp : p.MayWrite c a) : ¬ q.MayWrite c a :=
  fun hq => (h a).1 ⟨hp, .inl hq⟩

/-- A request gives the same results and accesses whether or not one on a disjoint buffer was performed before it. -/
theorem perform_after_disjoint {s t t' u : State} {p q : Request} {rest rest' rest'' : List Request}
    (hdisj : p.Disjoint s.cfg q) (hp : (s.accept p rest).perform = .next t)
    (hafter : (t.accept q rest').perform = .next t') (halone : (s.accept q rest'').perform = .next u) :
    t'.results = u.results ∧ t'.accesses = u.accesses := by
  obtain ⟨hcfg, -, -⟩ := State.perform_kept hp
  exact State.perform_congr (s := s.accept q rest'') (s' := t.accept q rest') hcfg rfl
    (fun _ hq => State.perform_read_of_not_mayWrite hp (hdisj.not_mayWrite_of_mayRead hq)) halone hafter

/-- Where the request `q` may not write, memory ends as the request `p` leaves it, whichever of them is performed first. -/
theorem perform_pair_read {s t t' u u' : State} {p q : Request} {rest rest' rest₂ rest₂' : List Request} {a : Nat}
    (hq : ¬ q.MayWrite s.cfg a)
    (hpFirst : (s.accept p rest).perform = .next t) (hqAfter : (t.accept q rest').perform = .next t')
    (hqFirst : (s.accept q rest₂).perform = .next u) (hpAfter : (u.accept p rest₂').perform = .next u') :
    t'.mem.read a = u'.mem.read a := by
  obtain ⟨htcfg, -, -⟩ := State.perform_kept hpFirst
  obtain ⟨hucfg, -, -⟩ := State.perform_kept hqFirst
  have hu : u.mem.read a = s.mem.read a := State.perform_read_of_not_mayWrite hqFirst hq
  have hq' : ¬ q.MayWrite t.cfg a := htcfg ▸ hq
  calc t'.mem.read a
      _ = t.mem.read a := State.perform_read_of_not_mayWrite hqAfter hq'
      _ = u'.mem.read a := State.perform_read_congr (s := u.accept p rest₂') (s' := s.accept p rest) hucfg.symm rfl hu.symm
        hpAfter hpFirst

end Sys2Proof.Machine

namespace Sys2Proof.Proofs

open Sys2Proof Sys2Proof.Machine

/-- Settles O36: after the two ENC the two encodings stand back to back, which the two DEC read. -/
theorem backToBackValuesAreReadBack : Obligations.BackToBackValuesAreReadBack := by
  intro o w s second len hwf hcap hlen
  obtain ⟨t1, t2, h1, h2, hok, hcfg, hfirst, hsecond⟩ := exec_enc_back_to_back hwf hcap
  obtain ⟨u1, u2, hdec⟩ := exec_dec_back_to_back (s := t2.present { s.ports with accIn := zeroLanes, len := len })
    (wf_dec_of_wf_enc (hcfg ▸ hwf)) rfl hfirst hsecond hlen
  exact ⟨t1, t2, u1, u2, h1, h2, hok, hdec⟩

/-- Settles O45: in either order a request finds the bytes it may read as it would alone, and no address is written by both. -/
theorem disjointRequestsCommute : Obligations.DisjointRequestsCommute := by
  intro s p q hdisj
  obtain ⟨s1, hstep1, hp1, hcfg1, hissued1, -⟩ := step_performs (s := { s with issued := [p, q] }) rfl
  obtain ⟨s2, hstep2, hq2, -⟩ := step_performs hissued1
  obtain ⟨u1, hstep1', hq1, hcfg1', hissued1', -⟩ := step_performs (s := { s with issued := [q, p] }) rfl
  obtain ⟨u2, hstep2', hp2, -⟩ := step_performs hissued1'
  obtain ⟨hresp, haccp⟩ := perform_after_disjoint (s := s) hdisj.symm hq1 hp2 hp1
  obtain ⟨hresq, haccq⟩ := perform_after_disjoint (s := s) hdisj hp1 hq2 hq1
  refine ⟨s1, s2, u1, u2, hstep1, hstep2, hstep1', hstep2', hresp.symm, haccp.symm, hresq, haccq, fun a => ?_⟩
  by_cases hq : q.MayWrite s.cfg a
  · exact (perform_pair_read (s := s) (hdisj.symm.not_both_mayWrite hq) hq1 hp2 hp1 hq2).symm
  · exact perform_pair_read (s := s) hq hp1 hq2 hq1 hp2

/-- Settles O10: after the steps the last request performed is on the ports, by the induction of `run_performs`. -/
theorem requestsArePerformedInIssueOrder : Obligations.RequestsArePerformedInIssueOrder := by
  intro s done waiting hissued
  obtain ⟨t, hrun, htissued, hcfg, hports⟩ := run_performs done waiting hissued
  refine ⟨t, hrun, htissued, hcfg, fun r hlast => ?_⟩
  rw [hports, List.getLastD_eq_getLast?, hlast, Option.getD_some]

/-- Settles O41: the accesses of each function by `exec_accesses`, their bounds by the bounds of the counts. -/
theorem bufferAccessesAreTheFirstCountIndices : Obligations.BufferAccessesAreTheFirstCountIndices := by
  intro i s t hexec
  obtain ⟨n, hcount, hacc⟩ := exec_accesses hexec
  obtain ⟨-, henc, hdec⟩ := countsStayWithinTheirBounds i s t n hexec hcount
  obtain ⟨hf, hacc⟩ | ⟨hf, bytes, hacc⟩ | ⟨hf, hacc⟩ := hacc
  · simp [hf, hacc]
  · have hcap : ∀ j < n, j < s.ports.cap := fun j hj => hj.trans_le (henc hf).1
    simpa [hf, hacc, hcount, Access.index, Access.isRead, Function.comp_def] using hcap
  · have hlen : ∀ j < n, j < s.ports.len := fun j hj => hj.trans_le (hdec hf)
    simpa [hf, hacc, hcount, Access.index, Access.isRead, Function.comp_def] using hlen

end Sys2Proof.Proofs

/-! PROOF. The encoding family: the select word (O1 to O4) and the step of a reserved code (O6), the longest encoding (O24),
one value at two widths (O27), and the single-integer form of a DEC result (O32). -/

namespace Sys2Proof

/-! ### The fields of the select word -/

theorem word_eq_fields (op : SelectWord) : widthField op ++ orientField op ++ funcField op = op := by
  revert op; decide

theorem widthField_append (a : BitVec 2) (b : BitVec 1) (c : BitVec 2) : widthField (a ++ b ++ c) = a := by
  revert a b c; decide

theorem orientField_append (a : BitVec 2) (b : BitVec 1) (c : BitVec 2) : orientField (a ++ b ++ c) = b := by
  revert a b c; decide

theorem funcField_append (a : BitVec 2) (b : BitVec 1) (c : BitVec 2) : funcField (a ++ b ++ c) = c := by
  revert a b c; decide

/-! ### Field codes -/

@[simp] theorem decodeWidth_code (w : Width) : decodeWidth w.code = some w := by cases w <;> rfl

@[simp] theorem decodeOrient_code (o : Orient) : decodeOrient o.code = o := by cases o <;> rfl

@[simp] theorem decodeFunc_code (f : Func) : decodeFunc f.code = some f := by cases f <;> rfl

theorem code_of_decodeWidth {b : BitVec 2} {w : Width} (h : decodeWidth b = some w) : w.code = b := by
  revert b w; decide

theorem code_decodeOrient (b : BitVec 1) : (decodeOrient b).code = b := by
  revert b; decide

theorem code_of_decodeFunc {b : BitVec 2} {f : Func} (h : decodeFunc b = some f) : f.code = b := by
  revert b f; decide

/-- `width` = 11 is the code of no width (R77). -/
theorem decodeWidth_eq_none_iff (b : BitVec 2) : decodeWidth b = none ↔ b = 0b11#2 := by
  revert b; decide

/-- `func` = 11 is the code of no function (R77). -/
theorem decodeFunc_eq_none_iff (b : BitVec 2) : decodeFunc b = none ↔ b = 0b11#2 := by
  revert b; decide

/-! ### The operation with given fields -/

@[simp] theorem Instr.func_ofFields (f : Func) (o : Orient) (w : Width) : (Instr.ofFields f o w).func = f := by
  cases f <;> cases o <;> cases w <;> rfl

@[simp] theorem Instr.orient_ofFields (f : Func) (o : Orient) (w : Width) : (Instr.ofFields f o w).orient = o := by
  cases f <;> cases o <;> cases w <;> rfl

@[simp] theorem Instr.width_ofFields (f : Func) (o : Orient) (w : Width) : (Instr.ofFields f o w).width = w := by
  cases f <;> cases o <;> cases w <;> rfl

theorem encode_ofFields (f : Func) (o : Orient) (w : Width) :
    encode (Instr.ofFields f o w) = w.code ++ o.code ++ f.code := by
  simp [encode]

/-! ### Decoder and encoder -/

/-- The decoder on a word put together from field codes. -/
theorem decode_codes {c : Config} {f : Func} {o : Orient} {w : Width} (h : (Instr.ofFields f o w).wf c = true) :
    decode c (w.code ++ o.code ++ f.code) = .ok (Instr.ofFields f o w) := by
  simp [decode, widthField_append, orientField_append, funcField_append, h]

/-- What the decoder can answer, by its branches: a reserved `width`, a reserved `func`, or the operation `i` whose select
word it is, when the build has it. -/
theorem decode_cases (c : Config) (op : SelectWord) :
    (widthField op = 0b11#2 ∧ decode c op = .error .reservedWidth) ∨
    (funcField op = 0b11#2 ∧ decode c op = .error .reservedFunc) ∨
    ∃ i, encode i = op ∧ decode c op = if i.wf c then .ok i else .error .absentWidth128 := by
  cases hw : decodeWidth (widthField op) with
  | none => exact .inl ⟨(decodeWidth_eq_none_iff _).1 hw, by simp [decode, hw]⟩
  | some w =>
    cases hf : decodeFunc (funcField op) with
    | none => exact .inr (.inl ⟨(decodeFunc_eq_none_iff _).1 hf, by simp [decode, hw, hf]⟩)
    | some f =>
      refine .inr (.inr ⟨Instr.ofFields f (decodeOrient (orientField op)) w, ?_, by simp [decode, hw, hf]⟩)
      rw [encode_ofFields, code_of_decodeWidth hw, code_decodeOrient, code_of_decodeFunc hf, word_eq_fields]

theorem decode_encode {c : Config} {i : Instr} (h : i.wf c = true) : decode c (encode i) = .ok i := by
  obtain ⟨f, o, w, rfl⟩ := Machine.instr_exists_fields i
  rw [encode_ofFields, decode_codes h]

theorem wf_and_encode_of_decode {c : Config} {op : SelectWord} {i : Instr} (h : decode c op = .ok i) :
    i.wf c = true ∧ encode i = op := by
  obtain ⟨-, hd⟩ | ⟨-, hd⟩ | ⟨i', henc, hd⟩ := decode_cases c op
  · simp [hd] at h
  · simp [hd] at h
  · rw [hd] at h
    split at h
    case isTrue hwf =>
      cases h
      exact ⟨hwf, henc⟩
    case isFalse => cases h

theorem widthField_encode (i : Instr) : widthField (encode i) = i.width.code := widthField_append _ _ _

theorem funcField_encode (i : Instr) : funcField (encode i) = i.func.code := funcField_append _ _ _

theorem Width.code_ne_reserved (w : Width) : w.code ≠ 0b11#2 := by cases w <;> decide

theorem Func.code_ne_reserved (f : Func) : f.code ≠ 0b11#2 := by cases f <;> decide

theorem Width.code_eq_two_iff (w : Width) : w.code = 0b10#2 ↔ w = .w128 := by cases w <;> decide

/-- The reserved codes (R77). -/
theorem decode_error_iff (c : Config) (op : SelectWord) : (∃ e, decode c op = .error e) ↔
    funcField op = 0b11#2 ∨ widthField op = 0b11#2 ∨ (widthField op = 0b10#2 ∧ c.hasW128 = false) := by
  obtain ⟨hfield, hd⟩ | ⟨hfield, hd⟩ | ⟨i, rfl, hd⟩ := decode_cases c op
  · simp [hfield, hd]
  · simp [hfield, hd]
  · have habsent : (∃ e, decode c (encode i) = .error e) ↔ i.wf c = false := by
      rw [hd]
      cases i.wf c <;> simp
    simp only [habsent, Machine.instr_wf_eq_false_iff, widthField_encode, funcField_encode, Func.code_ne_reserved,
      Width.code_ne_reserved, Width.code_eq_two_iff, false_or]

end Sys2Proof

namespace Sys2Proof.Machine

/-! ### Size and groups -/

/-- From the size on every group is zero. -/
theorem groupOf_eq_zero_of_size_le (o : Orient) {W : Nat} (v : BitVec W) {k : Nat} (h : encodedSize o W v ≤ k) :
    groupOf o W v k = 0 := by
  have hk : 1 ≤ k := (encodedSize_pos o W v).trans h
  cases o with
  | left => simp [groupOf, groupL, (sizeL_le_iff W v hk).1 h]
  | right => simp [groupOf, groupR, (sizeR_le_iff W v hk).1 h]

/-- In an encoding of two bytes or more the group numbered one below the size is not zero: the value would otherwise be gone
one shift earlier, as the step of a decoder undoes a shift. -/
theorem groupOf_size_pred_ne_zero (o : Orient) {W : Nat} (hW : 7 ≤ W) (v : BitVec W) {n : Nat} (hn : 1 ≤ n)
    (hsize : encodedSize o W v = n + 1) : groupOf o W v n ≠ 0 := by
  intro hzero
  have hle : encodedSize o W v ≤ n := by
    cases o with
    | left =>
      have hshift : v <<< (7 * (n + 1)) = 0 := (sizeL_le_iff W v n.succ_pos).1 hsize.le
      refine (sizeL_le_iff W v hn).2 ?_
      rw [← stepL_group hW v n false, hshift, show groupL W v n = 0 from hzero]
      simp [stepL, packByte]
    | right =>
      have hshift : v >>> (7 * (n + 1)) = 0 := (sizeR_le_iff W v n.succ_pos).1 hsize.le
      refine (sizeR_le_iff W v hn).2 ?_
      rw [← stepR_group hW v n false, hshift, show groupR W v n = 0 from hzero]
      simp [stepR, packByte, dataBits]
  omega

/-- The size is read off the groups: it is one more than the number of the highest non-zero one (R102, R132). -/
theorem encodedSize_le_iff_groups (o : Orient) {W : Nat} (hW : 7 ≤ W) (v : BitVec W) {n : Nat} (hn : 1 ≤ n) :
    encodedSize o W v ≤ n ↔ ∀ k, n ≤ k → groupOf o W v k = 0 := by
  refine ⟨fun h k hk => groupOf_eq_zero_of_size_le o v (h.trans hk), fun hzero => ?_⟩
  by_contra hlt
  obtain ⟨k, hk⟩ : ∃ k, encodedSize o W v = k + 1 := ⟨encodedSize o W v - 1, by omega⟩
  exact groupOf_size_pred_ne_zero o hW v (n := k) (by omega) hk (hzero k (by omega))

/-- Values with the same groups have the same encoding, whatever their widths. -/
theorem encodingOf_eq_of_groups (o : Orient) {W W' : Nat} (hW : 7 ≤ W) (hW' : 7 ≤ W') {v : BitVec W} {v' : BitVec W'}
    (hgroups : groupOf o W v = groupOf o W' v') : encodingOf o W v = encodingOf o W' v' := by
  have hsize : encodedSize o W v = encodedSize o W' v' := by
    refine le_antisymm ?_ ?_
    · rw [encodedSize_le_iff_groups o hW v (encodedSize_pos o W' v'), hgroups]
      exact fun k hk => groupOf_eq_zero_of_size_le o v' hk
    · rw [encodedSize_le_iff_groups o hW' v' (encodedSize_pos o W v), ← hgroups]
      exact fun k hk => groupOf_eq_zero_of_size_le o v hk
  rw [encodingOf_eq_emitGroups, encodingOf_eq_emitGroups, hgroups, hsize]

/-! ### The first byte and the partial group -/

/-- The first byte carries the group numbered one below the size (R65, R66). -/
theorem dataBits_encodingOf_first (o : Orient) {W : Nat} (hW : 7 ≤ W) (v : BitVec W) :
    dataBits ((encodingOf o W v).getD 0 0) = groupOf o W v (encodedSize o W v - 1) := by
  rw [encodingOf_eq_emitGroups, emitGroups_getD _ (encodedSize_pos o W v), Nat.sub_zero]
  exact dataBits_packByte _ (continues_groupOf o hW v _)

/-- A width is its full groups and the bits of the partial one (R7). -/
theorem seven_groupCount_add_extraBits (W : Nat) : 7 * groupCount W + extraBits W = W := Nat.div_add_mod W 7

theorem extraBits_lt (W : Nat) : extraBits W < 7 := Nat.mod_lt W (by norm_num)

theorem groupCount_pos {W : Nat} (hW : 7 ≤ W) : 1 ≤ groupCount W := Nat.div_pos hW (by norm_num)

/-- An encoding has NMAX bytes exactly when the partial group is not zero (R69). -/
theorem encodedSize_eq_maxBytes_iff (o : Orient) {W : Nat} (hW : 7 ≤ W) (v : BitVec W) :
    encodedSize o W v = maxBytes W ↔ groupOf o W v (groupCount W) ≠ 0 := by
  refine ⟨groupOf_size_pred_ne_zero o hW v (groupCount_pos hW), fun hgroup => ?_⟩
  by_contra hne
  have hlt : encodedSize o W v < groupCount W + 1 := lt_of_le_of_ne (encodedSize_le_maxBytes o W v) hne
  exact hgroup (groupOf_eq_zero_of_size_le o v (Nat.le_of_lt_succ hlt))

theorem toNat_div_lt_two_pow_extraBits {W : Nat} (v : BitVec W) : v.toNat / 2 ^ (7 * groupCount W) < 2 ^ extraBits W := by
  rw [Nat.div_lt_iff_lt_mul (by positivity), ← pow_add, Nat.add_comm, seven_groupCount_add_extraBits]
  exact v.isLt

/-- In orientation R the partial group is the value from bit 7G up, right-aligned (R70). -/
theorem groupR_partial_toNat {W : Nat} (hW : 7 ≤ W) (v : BitVec W) :
    (groupR W v (groupCount W)).toNat = v.toNat / 2 ^ (7 * groupCount W) := by
  have hlt : v.toNat / 2 ^ (7 * groupCount W) < 2 ^ 7 :=
    (toNat_div_lt_two_pow_extraBits v).trans_le (Nat.pow_le_pow_right (by norm_num) (extraBits_lt W).le)
  have hmask : 0x7F % 2 ^ W = 2 ^ 7 - 1 := Nat.mod_eq_of_lt
    (lt_of_lt_of_le (by norm_num : 0x7F < 2 ^ 7) (Nat.pow_le_pow_right (by norm_num) hW))
  rw [groupR, BitVec.toNat_setWidth, BitVec.toNat_and, BitVec.toNat_ushiftRight, BitVec.toNat_ofNat,
    Nat.shiftRight_eq_div_pow, hmask, Nat.and_two_pow_sub_one_eq_mod, Nat.mod_eq_of_lt hlt]
  exact Nat.mod_eq_of_lt (hlt.trans (by norm_num))

/-- In orientation L the partial group is the value's bits below E, above PAD zero bits (R70). -/
theorem groupL_partial_toNat {W : Nat} (hW : 7 ≤ W) (v : BitVec W) :
    (groupL W v (groupCount W)).toNat = v.toNat % 2 ^ extraBits W * 2 ^ padBits W := by
  have hE := extraBits_lt W
  have hsplit := seven_groupCount_add_extraBits W
  have hmoved : (v <<< (7 * groupCount W)).toNat = v.toNat % 2 ^ extraBits W * 2 ^ (7 * groupCount W) := by
    rw [BitVec.toNat_shiftLeft, Nat.shiftLeft_eq, ← Nat.mul_mod_mul_right, ← pow_add, Nat.add_comm, hsplit]
  have hpow : 2 ^ (7 * groupCount W) = 2 ^ padBits W * 2 ^ topShift W := by
    rw [← pow_add, padBits, topShift]
    congr 1
    omega
  have hlt : v.toNat % 2 ^ extraBits W * 2 ^ padBits W < 2 ^ 8 := by
    calc v.toNat % 2 ^ extraBits W * 2 ^ padBits W
        _ < 2 ^ extraBits W * 2 ^ padBits W := Nat.mul_lt_mul_of_pos_right (Nat.mod_lt _ (by positivity)) (by positivity)
        _ = 2 ^ 7 := by rw [← pow_add, padBits, Nat.add_sub_cancel' hE.le]
        _ < 2 ^ 8 := by norm_num
  rw [groupL, BitVec.toNat_setWidth, BitVec.toNat_ushiftRight, Nat.shiftRight_eq_div_pow, hmoved, hpow, ← Nat.mul_assoc,
    Nat.mul_div_cancel _ (by positivity), Nat.mod_eq_of_lt hlt]

theorem byte_ne_zero_iff (b : Byte) : b ≠ 0 ↔ b.toNat ≠ 0 := BitVec.toNat_ne_iff_ne.symm

theorem groupR_partial_ne_zero_iff {W : Nat} (hW : 7 ≤ W) (v : BitVec W) :
    groupR W v (groupCount W) ≠ 0 ↔ 2 ^ (7 * groupCount W) ≤ v.toNat := by
  rw [byte_ne_zero_iff, groupR_partial_toNat hW, Nat.div_ne_zero_iff]
  simp

theorem groupL_partial_ne_zero_iff {W : Nat} (hW : 7 ≤ W) (v : BitVec W) :
    groupL W v (groupCount W) ≠ 0 ↔ v.toNat % 2 ^ extraBits W ≠ 0 := by
  rw [byte_ne_zero_iff, groupL_partial_toNat hW]
  simp

/-! ### The same value at another width -/

/-- The value of another width that has the same groups (R76): the same number in orientation R, and the value moved to the top
of the word in orientation L (`groupOf_atWidth`). -/
def atWidth (o : Orient) {W : Nat} (W' : Nat) (v : BitVec W) : BitVec W' :=
  match o with
  | .left => v.setWidth W' <<< (W' - W)
  | .right => v.setWidth W'

theorem getLsbD_atWidth_left {W W' : Nat} (hle : W ≤ W') (v : BitVec W) (i : Nat) :
    (atWidth .left W' v).getLsbD i = (decide (W' - W ≤ i) && v.getLsbD (i - (W' - W))) := by
  simp only [atWidth, BitVec.getLsbD_shiftLeft, BitVec.getLsbD_setWidth]
  by_cases hi : i < W'
  · simp only [hi, show i - (W' - W) < W' by omega, decide_true, Bool.true_and, ← decide_not, Nat.not_lt]
  · simp [hi, BitVec.getLsbD_of_ge v (i - (W' - W)) (by omega)]

theorem getLsbD_atWidth_right {W W' : Nat} (hle : W ≤ W') (v : BitVec W) (i : Nat) :
    (atWidth .right W' v).getLsbD i = v.getLsbD i := by
  rw [atWidth, BitVec.getLsbD_setWidth]
  by_cases hi : i < W'
  · simp [hi]
  · simp [hi, BitVec.getLsbD_of_ge v i (by omega)]

/-- Bit j of group k is as far from the top of the word (L) or from its bottom (R) at either width. -/
theorem groupOf_atWidth (o : Orient) {W W' : Nat} (hW : 7 ≤ W) (hle : W ≤ W') (v : BitVec W) :
    groupOf o W' (atWidth o W' v) = groupOf o W v := by
  funext k
  apply BitVec.eq_of_getLsbD_eq
  intro j hj
  cases o with
  | left =>
    simp only [groupOf, groupL_getLsbD hW, groupL_getLsbD (hW.trans hle), getLsbD_atWidth_left hle]
    by_cases hk : 7 * k + 7 ≤ W + j
    · simp only [hk, show 7 * k + 7 ≤ W' + j by omega, show W' - W ≤ W' + j - (7 * k + 7) by omega,
        show W' + j - (7 * k + 7) - (W' - W) = W + j - (7 * k + 7) by omega, decide_true, Bool.true_and]
    · have hout : ¬ (7 * k + 7 ≤ W' + j) ∨ ¬ (W' - W ≤ W' + j - (7 * k + 7)) := by omega
      rcases hout with h | h <;> simp only [hk, h, decide_false, Bool.false_and, Bool.and_false]
  | right =>
    simp only [groupOf, groupR_getLsbD hW, groupR_getLsbD (hW.trans hle), getLsbD_atWidth_right hle]

/-- A decode of an encoding from a zero accumulator returns the value and consumes the encoding whole. -/
theorem decodeSeq_encodingOf (o : Orient) {W : Nat} (hW : 7 ≤ W) (v : BitVec W) :
    decodeSeq o W 0 (encodingOf o W v) =
      ⟨v, encodedSize o W v, true, (List.range (encodedSize o W v)).map Access.read⟩ := by
  have hpos := encodedSize_pos o W v
  have hbytes : (List.range (encodedSize o W v)).map (fun i => (encodingOf o W v).getD i 0) = encodingOf o W v := by
    refine List.ext_getElem (by simp) fun i _ hi => ?_
    rw [List.getElem_map, List.getElem_range, List.getD_eq_getElem _ _ hi]
  rw [decodeSeq, encodingOf_length, decodeLoop_terminates _ _ _ 0 (encodedSize o W v - 1) 0 (by omega)]
  · simp only [Nat.zero_add, Nat.sub_add_cancel hpos, hbytes, foldl_encodingOf o hW v]
  · intro j hj
    rw [Nat.zero_add, continues_encodingOf o hW v (by omega)]
    exact decide_eq_true (by omega)
  · rw [Nat.zero_add, continues_encodingOf o hW v (by omega)]
    exact decide_eq_false (by omega)

theorem encodingOf_atWidth (o : Orient) {W W' : Nat} (hW : 7 ≤ W) (hle : W ≤ W') (v : BitVec W) :
    encodingOf o W' (atWidth o W' v) = encodingOf o W v :=
  encodingOf_eq_of_groups o (hW.trans hle) hW (groupOf_atWidth o hW hle v)

theorem decodeSeq_acc_atWidth (o : Orient) {W W' : Nat} (hW : 7 ≤ W) (hle : W ≤ W') (v : BitVec W) :
    (decodeSeq o W' 0 (encodingOf o W v)).acc = atWidth o W' v := by
  rw [← encodingOf_atWidth o hW hle, decodeSeq_encodingOf o (hW.trans hle)]

/-! ### The single-integer form -/

@[simp] theorem signedCount_of_term (c : Nat) : signedCount c true = (c : Int) := rfl

@[simp] theorem signedCount_of_no_term (c : Nat) : signedCount c false = -(c : Int) := rfl

end Sys2Proof.Machine

namespace Sys2Proof.Proofs

open Sys2Proof Sys2Proof.Machine

/-- Settles O2, the decoder on a word put together from field codes. -/
theorem decodeOfEncodeIsTheOperation : Obligations.DecodeOfEncodeIsTheOperation := fun _ _ => decode_encode

/-- Settles O3, by the branches of the decoder. -/
theorem decodedWordIsTheEncoding : Obligations.DecodedWordIsTheEncoding := fun _ _ _ => wf_and_encode_of_decode

/-- Settles O1: each of the six words is the select word of its operation. -/
theorem specWordsDecodeToTheirOperations : Obligations.SpecWordsDecodeToTheirOperations :=
  ⟨decodeOfEncodeIsTheOperation ⟨true⟩ .sizeL32 rfl, decodeOfEncodeIsTheOperation ⟨true⟩ .encL32 rfl,
    decodeOfEncodeIsTheOperation ⟨true⟩ .decR32 rfl, decodeOfEncodeIsTheOperation ⟨true⟩ .decL64 rfl,
    decodeOfEncodeIsTheOperation ⟨true⟩ .encR64 rfl, decodeOfEncodeIsTheOperation ⟨true⟩ .sizeR128 rfl⟩

/-- Settles O4: the field codes are the map's, a build lacks no operation but the 128-bit ones, and the reserved codes are
those of `decode_error_iff`. -/
theorem selectWordFieldsAndReservedCodes : Obligations.SelectWordFieldsAndReservedCodes := by
  refine ⟨rfl, rfl, rfl, rfl, rfl, rfl, rfl, rfl, fun c => ⟨fun f o w hbuild => decode_codes ?_, decode_error_iff c⟩⟩
  by_contra hwf
  obtain ⟨hwidth, habsent⟩ := (instr_wf_eq_false_iff c _).1 (Bool.eq_false_of_not_eq_true hwf)
  rw [hbuild (by simpa using hwidth)] at habsent
  cases habsent

/-- Settles O6: the head request is accepted, and its select word names no operation. -/
theorem stepOfReservedCodeIsIllegalOp : Obligations.StepOfReservedCodeIsIllegalOp := by
  intro s r rest e hissued hdec
  calc step s
      _ = (s.accept r rest).perform := step_issued hissued
      _ = .next (s.accept r rest).illegalOp := State.perform_error hdec

/-- Settles O24: the size is NMAX exactly when the group numbered G is not zero, and the first byte carries the group
numbered one below the size. -/
theorem longestEncodingBeginsWithThePartialGroup : Obligations.LongestEncodingBeginsWithThePartialGroup := by
  intro o w v
  have hW := seven_le_bits w
  rw [encodingOf_length]
  refine ⟨encodedSize_le_maxBytes o _ v, encodedSize_eq_maxBytes_iff o hW v, ?_, ?_, fun hmax => ?_⟩
  · rintro rfl
    exact groupR_partial_ne_zero_iff hW v
  · rintro rfl
    exact groupL_partial_ne_zero_iff hW v
  · have hne := (encodedSize_eq_maxBytes_iff o hW v).1 hmax
    have hfirst : dataBits ((encodingOf o w.bits v).getD 0 0) = groupOf o w.bits v (groupCount w.bits) := by
      rw [dataBits_encodingOf_first o hW, hmax]
      rfl
    have hmore : 1 < encodedSize o w.bits v := hmax ▸ Nat.succ_lt_succ (groupCount_pos hW)
    rw [continues_encodingOf o hW v (encodedSize_pos o _ v), hfirst]
    refine ⟨decide_eq_true hmore, rfl, ?_, ?_⟩
    · rintro rfl
      refine ⟨Nat.pos_of_ne_zero ((byte_ne_zero_iff _).1 hne), ?_⟩
      exact (groupR_partial_toNat hW v).trans_lt (toNat_div_lt_two_pow_extraBits v)
    · rintro rfl
      refine ⟨(byte_ne_zero_iff _).1 hne, ?_⟩
      exact (groupL_partial_toNat hW v).symm ▸ Dvd.intro_left _ rfl

/-- Settles O27: the value moved to the wider word as its orientation asks has the same groups, so the same encoding, which
the wider decoder takes back to it. -/
theorem encodingsAcrossWidths : Obligations.EncodingsAcrossWidths := by
  intro w1 w2 v hle
  have hW := seven_le_bits w1
  exact ⟨encodingOf_atWidth .right hW hle v, decodeSeq_acc_atWidth .right hW hle v,
    encodingOf_atWidth .left hW hle v, decodeSeq_acc_atWidth .left hW hle v⟩

/-- Settles O32: with a terminator at index k the form is k + 1, and without one it is minus the whole length. -/
theorem signedCountTellsTheThreeCases : Obligations.SignedCountTellsTheThreeCases := by
  intro o w s t hwf hexec
  rw [exec_dec o w s hwf] at hexec
  cases hexec
  refine ⟨_, _, rfl, rfl, ?_⟩
  rcases terminates_or_not s.bufferByte s.ports.len with ⟨k, hk⟩ | hnone
  · rw [State.decodeRun_terminates _ _ hk]
    have hlen : s.ports.len ≠ 0 := Nat.ne_zero_of_lt hk.1
    have hcount : (k : Int) + 1 ≠ 0 := by omega
    simp [hlen, hcount]
  · rw [State.decodeRun_runs_out _ _ hnone]
    simp

end Sys2Proof.Proofs

/-! PROOF. The left-grouped family: a DEC resumed on a second buffer (O33), SIZE.L (O13) and the size in terms of the groups
(O16), ENC.L (O18) and the scan form of the encoders (O25), DEC.L (O28) and its closed form (O30). -/

namespace Sys2Proof.Machine

/-! ### A decode in two pieces -/

theorem TerminatesAt.after {byteAt : Nat → Byte} {k m c : Nat} (hmore : Unterminated byteAt k)
    (h : TerminatesAt (fun j => byteAt (k + j)) m c) : TerminatesAt byteAt (k + m) (k + c) := by
  obtain ⟨hc, hlast, hbefore⟩ := h
  refine ⟨by omega, hlast, fun j hj => ?_⟩
  rcases Nat.lt_or_ge j k with hjk | hjk
  · exact hmore j hjk
  · obtain ⟨i, rfl⟩ := Nat.exists_eq_add_of_le hjk
    exact hbefore i (by omega)

theorem Unterminated.append {byteAt : Nat → Byte} {k m : Nat} (hmore : Unterminated byteAt k)
    (h : Unterminated (fun j => byteAt (k + j)) m) : Unterminated byteAt (k + m) := by
  intro j hj
  rcases Nat.lt_or_ge j k with hjk | hjk
  · exact hmore j hjk
  · obtain ⟨i, rfl⟩ := Nat.exists_eq_add_of_le hjk
    exact h i (by omega)

/-- The bytes of a piece of length `k` and those of the piece behind it are folded one after the other. -/
theorem foldl_range_add {α : Type} (fold : α → Byte → α) (acc : α) (byteAt : Nat → Byte) (k n : Nat) :
    ((List.range (k + n)).map byteAt).foldl fold acc =
      ((List.range n).map fun j => byteAt (k + j)).foldl fold (((List.range k).map byteAt).foldl fold acc) := by
  rw [List.range_add, List.map_append, List.foldl_append, List.map_map]
  rfl

/-- A buffer `s` that is the unterminated buffer `s₁` followed by the buffer `s₂`: the decode of `s` is that of `s₂` from the
accumulator that the decode of `s₁` ends with, and the counts add (R113, R143). -/
theorem State.decodeRun_resume {W : Nat} {s s₁ s₂ : State} (fold : BitVec W → Byte → BitVec W) (acc : BitVec W)
    (hlen : s.ports.len = s₁.ports.len + s₂.ports.len) (hfirst : s₁.bufferByte = s.bufferByte)
    (hsecond : s₂.bufferByte = fun j => s.bufferByte (s₁.ports.len + j))
    (hmore : Unterminated s₁.bufferByte s₁.ports.len) :
    (s.decodeRun fold acc).acc = (s₂.decodeRun fold (s₁.decodeRun fold acc).acc).acc ∧
      (s.decodeRun fold acc).term = (s₂.decodeRun fold (s₁.decodeRun fold acc).acc).term ∧
      (s.decodeRun fold acc).count = s₁.ports.len + (s₂.decodeRun fold (s₁.decodeRun fold acc).acc).count := by
  rw [State.decodeRun_runs_out fold acc hmore, hfirst]
  rw [hfirst] at hmore
  rcases terminates_or_not s₂.bufferByte s₂.ports.len with ⟨c, hc⟩ | hnone
  · have hwhole : TerminatesAt s.bufferByte s.ports.len (s₁.ports.len + c) :=
      hlen ▸ TerminatesAt.after hmore (hsecond ▸ hc)
    rw [State.decodeRun_terminates fold _ hc, State.decodeRun_terminates fold _ hwhole, hsecond, Nat.add_assoc,
      foldl_range_add]
    exact ⟨rfl, rfl, rfl⟩
  · have hwhole : Unterminated s.bufferByte s.ports.len := hlen ▸ Unterminated.append hmore (hsecond ▸ hnone)
    rw [State.decodeRun_runs_out fold _ hnone, State.decodeRun_runs_out fold _ hwhole, hsecond, hlen, foldl_range_add]
    exact ⟨rfl, rfl, rfl⟩

/-- The accumulator handed over is the one the DEC drove (R205). -/
theorem Lanes.get_takeFrom_of (l : Lanes) (w : Width) (a : BitVec w.bits) :
    (Lanes.takeFrom l (AccLanes.of w a)).get w = a := by
  cases w <;> rfl

/-- A DEC without a terminator in its buffer is incomplete and drives the partial accumulator (R183). -/
theorem exec_dec_runs_out {o : Orient} {w : Width} {s : State} (hwf : (Instr.ofFields .dec o w).wf s.cfg = true)
    (hmore : Unterminated s.bufferByte s.ports.len) :
    ∃ t, exec (Instr.ofFields .dec o w) s = .next t ∧ t.mem = s.mem ∧
      t.results = ⟨some s.ports.len, AccLanes.of w (s.decodeRun (stepOf o w.bits) (s.ports.accIn.get w)).acc, some false,
        some .incomplete⟩ := by
  refine ⟨_, exec_dec o w s hwf, rfl, ?_⟩
  rw [State.decodeRun_runs_out _ _ hmore]
  rfl

/-- The DEC of the second buffer `s₂`, given the accumulator of the first, and the DEC of the whole buffer `s` end alike. -/
theorem exec_dec_resume {o : Orient} {w : Width} {s s₁ s₂ : State} (hwf : (Instr.ofFields .dec o w).wf s.cfg = true)
    (hcfg : s₂.cfg = s.cfg) (hlen : s.ports.len = s₁.ports.len + s₂.ports.len) (hfirst : s₁.bufferByte = s.bufferByte)
    (hsecond : s₂.bufferByte = fun j => s.bufferByte (s₁.ports.len + j))
    (hmore : Unterminated s₁.bufferByte s₁.ports.len)
    (hacc : s₂.ports.accIn.get w = (s₁.decodeRun (stepOf o w.bits) (s.ports.accIn.get w)).acc) :
    ∃ t₂ t, exec (Instr.ofFields .dec o w) s₂ = .next t₂ ∧ exec (Instr.ofFields .dec o w) s = .next t ∧
      t.results.accOut = t₂.results.accOut ∧ t.results.term = t₂.results.term ∧ t.results.status = t₂.results.status ∧
      ∃ c, t₂.results.count = some c ∧ t.results.count = some (s₁.ports.len + c) := by
  obtain ⟨hacc', hterm, hcount⟩ := State.decodeRun_resume (stepOf o w.bits) (s.ports.accIn.get w) hlen hfirst hsecond hmore
  rw [← hacc] at hacc' hterm hcount
  exact ⟨_, _, exec_dec o w s₂ (hcfg ▸ hwf), exec_dec o w s hwf, congrArg (AccLanes.of w) hacc', congrArg some hterm,
    congrArg (fun b => some (statusOfTerm b)) hterm, _, rfl, congrArg some hcount⟩

/-! ### The closed form of the left-grouped decoder -/

/-- The step of R111 with the continuation bit masked off, as `DEC.L` is specified. -/
theorem stepOf_left_eq {W : Nat} (hW : 7 ≤ W) :
    stepOf .left W = fun (acc : BitVec W) (b : Byte) => (acc >>> 7) ||| ((b &&& 0x7F).setWidth W <<< (W - 7)) := by
  funext acc b
  exact stepL_eq hW acc b

/-- A right shift goes through a chain of ORs. -/
theorem foldl_or_shiftRight {W : Nat} (f : Nat → BitVec W) (n : Nat) (l : List Nat) (a : BitVec W) :
    l.foldl (fun x i => x ||| f i) a >>> n = l.foldl (fun x i => x ||| f i >>> n) (a >>> n) := by
  induction l generalizing a with
  | nil => rfl
  | cons i l ih => rw [List.foldl_cons, List.foldl_cons, ih, BitVec.ushiftRight_or_distrib]

/-- One byte more: every term of R114 moves down by 7 bits, and the new byte's data is put at the top. -/
theorem closedL_succ {W : Nat} (hW : 7 ≤ W) (acc : BitVec W) (byteAt : Nat → Byte) (c : Nat) :
    closedL W acc byteAt (c + 1) = stepL W (closedL W acc byteAt c) (byteAt c) := by
  rw [stepL_eq hW, closedL, closedL, foldl_or_shiftRight, ← BitVec.shiftRight_add, List.range_succ, List.foldl_append,
    List.foldl_cons, List.foldl_nil]
  congr 1
  · refine List.foldl_ext _ _ _ fun x i hi => ?_
    have hic : i < c := List.mem_range.1 hi
    rw [← BitVec.shiftRight_add, show 7 * (c - 1 - i) + 7 = 7 * (c + 1 - 1 - i) by omega]
  · simp [topShift]

theorem foldl_stepL_eq_closedL {W : Nat} (hW : 7 ≤ W) (acc : BitVec W) (byteAt : Nat → Byte) (c : Nat) :
    ((List.range c).map byteAt).foldl (stepL W) acc = closedL W acc byteAt c := by
  induction c with
  | zero => simp [closedL]
  | succ c ih => rw [List.range_succ, List.map_append, List.foldl_append, ih, closedL_succ hW]; rfl

theorem AccLanes.get_of (w : Width) (a : BitVec w.bits) : (AccLanes.of w a).get w = some a := by
  cases w <;> rfl

/-- The accumulator of a decode is the fold of the bytes it counts (R112, R142). -/
theorem State.decodeRun_acc {W : Nat} (s : State) (fold : BitVec W → Byte → BitVec W) (acc : BitVec W) :
    (s.decodeRun fold acc).acc = ((List.range (s.decodeRun fold acc).count).map s.bufferByte).foldl fold acc := by
  rcases terminates_or_not s.bufferByte s.ports.len with ⟨k, hk⟩ | hnone
  · rw [State.decodeRun_terminates fold acc hk]
  · rw [State.decodeRun_runs_out fold acc hnone]

/-! ### The left-grouped size -/

/-- A left shift drops all of a value exactly when it drops its lowest set bit. -/
theorem shiftLeft_eq_zero_iff_of_lowest {W : Nat} {v : BitVec W} {z : Nat} (hz : v.getLsbD z = true)
    (hlow : ∀ j < z, v.getLsbD j = false) (n : Nat) : v <<< n = 0 ↔ W ≤ n + z := by
  constructor
  · intro h
    by_contra hlt
    have hbit : (v <<< n).getLsbD (n + z) = true := by simp [hz, Nat.lt_of_not_le hlt]
    simp [h] at hbit
  · intro h
    apply BitVec.eq_of_getLsbD_eq
    intro i hi
    rcases Nat.lt_or_ge i n with hin | hin
    · simp [hin]
    · simp [hlow (i - n) (by omega)]

/-- The left-grouped size in closed form: the groups from the top one down to the one with the lowest set bit. -/
theorem sizeL_eq_of_lowest {W : Nat} {v : BitVec W} {z : Nat} (hz : v.getLsbD z = true)
    (hlow : ∀ j < z, v.getLsbD j = false) : sizeL W v = (W - 1 - z) / 7 + 1 := by
  have hle : ∀ n, 1 ≤ n → (sizeL W v ≤ n ↔ W ≤ 7 * n + z) := fun n hn =>
    (sizeL_le_iff W v hn).trans (shiftLeft_eq_zero_iff_of_lowest hz hlow _)
  have hzW : z < W := BitVec.lt_of_getLsbD hz
  have hlower : W ≤ 7 * sizeL W v + z := (hle _ (sizeL_pos W v)).1 le_rfl
  have hupper : sizeL W v ≤ (W - 1 - z) / 7 + 1 := (hle _ (Nat.le_add_left 1 _)).2 (by omega)
  omega

theorem sizeL_zero (W : Nat) : sizeL W 0 = 1 := if_pos rfl

/-! ### The size and the highest-numbered non-zero group -/

theorem stepOf_zero (o : Orient) (W : Nat) : stepOf o W 0 0 = 0 := by
  cases o <;> simp [stepOf, stepL, stepR, dataBits]

/-- The group numbered one below the size is not zero, unless the value is: with one byte the value would decode from a zero
byte, and with more `groupOf_size_pred_ne_zero` says it. -/
theorem groupOf_highest_ne_zero (o : Orient) {W : Nat} (hW : 7 ≤ W) {v : BitVec W} (hv : v ≠ 0) {k : Nat}
    (hsize : encodedSize o W v = k + 1) : groupOf o W v k ≠ 0 := by
  cases k with
  | succ k => exact groupOf_size_pred_ne_zero o hW v k.succ_pos hsize
  | zero =>
    intro hzero
    have hbytes : encodingOf o W v = [0] := by
      rw [encodingOf_eq_emitGroups, hsize]
      simp [emitGroups, packByte, hzero]
    apply hv
    calc v
      _ = (encodingOf o W v).foldl (stepOf o W) 0 := (foldl_encodingOf o hW v).symm
      _ = 0 := by rw [hbytes]; exact stepOf_zero o W

/-! ### The scan form of the encoders -/

theorem emitDown_eq_emitGroups (group : Nat → Byte) (k : Nat) : emitDown group k = emitGroups group (k + 1) := by
  induction k with
  | zero => rfl
  | succ k ih => rw [emitDown, ih, emitGroups]; rfl

/-- The scan stops one below the size, from any start that is not below that (R107, R137). -/
theorem scanDown_groupOf (o : Orient) {W : Nat} (hW : 7 ≤ W) (v : BitVec W) {k : Nat} (hk : encodedSize o W v ≤ k + 1) :
    scanDown (groupOf o W v) k + 1 = encodedSize o W v := by
  induction k with
  | zero => exact le_antisymm (encodedSize_pos o W v) hk
  | succ k ih =>
    rw [scanDown]
    split
    case isTrue hzero =>
      have hne : encodedSize o W v ≠ k + 1 + 1 := fun hsize => groupOf_size_pred_ne_zero o hW v k.succ_pos hsize hzero
      exact ih (by omega)
    case isFalse hne =>
      have hlt : ¬ encodedSize o W v ≤ k + 1 := fun hle => hne (groupOf_eq_zero_of_size_le o v hle)
      omega

theorem scanEncoding_eq_encodingOf (o : Orient) {W : Nat} (hW : 7 ≤ W) (v : BitVec W) :
    scanEncoding o W v = encodingOf o W v := by
  obtain ⟨g, hg⟩ : ∃ g, groupCount W = g + 1 := ⟨groupCount W - 1, (Nat.sub_add_cancel (groupCount_pos hW)).symm⟩
  have hmax := encodedSize_eq_maxBytes_iff o hW v
  rw [maxBytes, hg] at hmax
  rw [encodingOf_eq_emitGroups, scanEncoding, hg, Nat.add_sub_cancel]
  split
  case isTrue hpartial =>
    rw [hmax.2 hpartial, emitDown_eq_emitGroups, emitGroups]
    rfl
  case isFalse hzero =>
    have hle : encodedSize o W v ≤ g + 1 + 1 := hg ▸ encodedSize_le_maxBytes o W v
    have hne : encodedSize o W v ≠ g + 1 + 1 := fun hsize => hzero (hmax.1 hsize)
    rw [emitDown_eq_emitGroups, scanDown_groupOf o hW v (by omega)]

/-! ### What an ENC stores -/

theorem packByte_getLsbD (more : Bool) {d : Byte} (h : continues d = false) {j : Nat} (hj : j < 7) :
    (packByte more d).getLsbD j = d.getLsbD j := by
  have hdata := congrArg (fun b => b.getLsbD j) (dataBits_packByte more h)
  simpa [dataBits_getLsbD, hj] using hdata

/-- The data bits of a byte of an encoding are those of its group (R65, R66). -/
theorem encodingOf_getLsbD (o : Orient) {W : Nat} (hW : 7 ≤ W) (v : BitVec W) {i j : Nat} (hi : i < encodedSize o W v)
    (hj : j < 7) :
    ((encodingOf o W v).getD i 0).getLsbD j = (groupOf o W v (encodedSize o W v - 1 - i)).getLsbD j := by
  rw [encodingOf_eq_emitGroups, emitGroups_getD _ hi]
  exact packByte_getLsbD _ (continues_groupOf o hW v _) hj

theorem storeBytes_holdsAt (base : Nat) (m : Memory) (bytes : List Byte) :
    (storeBytes base m 0 bytes).mem.HoldsAt base bytes := by
  intro i hi
  rw [storeBytes_read, if_pos (by omega), Nat.add_zero, Nat.add_sub_cancel_left]

/-- The byte an access records is the one that memory then holds. -/
theorem storeBytes_accesses_eq_reads (base : Nat) (m : Memory) (bytes : List Byte) :
    (storeBytes base m 0 bytes).accesses =
      (List.range bytes.length).map fun i => .write i ((storeBytes base m 0 bytes).mem.read (base + i)) := by
  rw [storeBytes_accesses]
  refine List.map_congr_left fun i hi => ?_
  rw [storeBytes_holdsAt base m bytes i (List.mem_range.1 hi), Nat.zero_add]

/-- The whole next state of an ENC with room enough: the encoding stands at the start of the buffer, each of its bytes written
once, and every address outside of it reads as before (R106, R136). -/
theorem exec_enc_stores {o : Orient} {w : Width} {s : State} (hwf : (Instr.ofFields .enc o w).wf s.cfg = true)
    (hcap : encodedSize o w.bits (s.ports.value.get w) ≤ s.ports.cap) :
    ∃ m : Memory, exec (Instr.ofFields .enc o w) s =
        .next { s with
          mem := m
          results := ⟨some (encodedSize o w.bits (s.ports.value.get w)), AccLanes.absent, none, some .ok⟩
          accesses := (List.range (encodedSize o w.bits (s.ports.value.get w))).map
            fun i => .write i (m.read (s.ports.base + i)) } ∧
      m.HoldsAt s.ports.base (encodingOf o w.bits (s.ports.value.get w)) ∧
      ∀ a, ¬ (s.ports.base ≤ a ∧ a < s.ports.base + encodedSize o w.bits (s.ports.value.get w)) →
        m.read a = s.mem.read a := by
  have hst : statusOfCount (encodedSize o w.bits (s.ports.value.get w)) = .ok :=
    if_neg (Nat.ne_of_gt (encodedSize_pos o w.bits _))
  refine ⟨_, ?_, storeBytes_holdsAt s.ports.base s.mem _, fun a ha => ?_⟩
  · rw [exec_enc o w s hwf, State.encoded_fits _ hcap, storeBytes_accesses_eq_reads, encodingOf_length, hst]
    rfl
  · rw [storeBytes_read, encodingOf_length]
    exact if_neg ha

end Sys2Proof.Machine

namespace Sys2Proof.Proofs

open Sys2Proof Sys2Proof.Machine

/-- Settles O33: the three buffers are those of `State.decodeRun_resume`, the second one read from the accumulator that the
first DEC drove. -/
theorem decodeResumesAcrossBuffers : Obligations.DecodeResumesAcrossBuffers := by
  intro o w s k m hwf hmore
  obtain ⟨t₁, h₁, hmem₁, hres₁⟩ := exec_dec_runs_out (s := s.present { s.ports with len := k }) hwf hmore
  obtain ⟨hcfg₁, -, -⟩ := exec_kept h₁
  have hbytes₂ : (t₁.present (t₁.ports.resume t₁.results (s.ports.base + k) m)).bufferByte =
      fun j => (s.present { s.ports with len := k + m }).bufferByte (k + j) := by
    funext j
    exact (congrArg (Memory.read · _) hmem₁).trans (congrArg s.mem.read (Nat.add_assoc _ k j))
  obtain ⟨t₂, t, h₂, h, hsame⟩ := exec_dec_resume (s := s.present { s.ports with len := k + m })
    (s₁ := s.present { s.ports with len := k }) (s₂ := t₁.present (t₁.ports.resume t₁.results (s.ports.base + k) m))
    hwf hcfg₁ rfl rfl hbytes₂ hmore (by rw [hres₁]; exact Lanes.get_takeFrom_of _ w _)
  exact ⟨t₁, t₂, t, h₁, congrArg Results.status hres₁, congrArg Results.count hres₁, h₂, h, hsame⟩

/-- Settles O16: the group numbered one below the size is not zero, and from the size on every group is. -/
theorem sizeIsOneMoreThanTheHighestNonzeroGroup : Obligations.SizeIsOneMoreThanTheHighestNonzeroGroup := by
  intro o w v hv
  obtain ⟨k, hk⟩ : ∃ k, encodedSize o w.bits v = k + 1 := Nat.exists_eq_add_of_le' (encodedSize_pos o w.bits v)
  have hmax : k + 1 ≤ groupCount w.bits + 1 := hk ▸ encodedSize_le_maxBytes o w.bits v
  exact ⟨k, Nat.le_of_succ_le_succ hmax, hk, groupOf_highest_ne_zero o (seven_le_bits w) hv hk,
    fun j hj _ => groupOf_eq_zero_of_size_le o v (hk ▸ hj)⟩

/-- Settles O13, by the closed form of the left-grouped size. -/
theorem sizeLeftCountsDownToTheLowestSetBit : Obligations.SizeLeftCountsDownToTheLowestSetBit := by
  intro w s hwf
  refine ⟨decode_codes (f := .size) (o := .left) hwf, _, exec_size .left w s hwf, encodedSize_pos .left _ _,
    encodedSize_le_maxBytes .left _ _, fun hzero => ?_, fun z hz hlow => sizeL_eq_of_lowest hz hlow⟩
  rw [hzero]
  exact sizeL_zero _

/-- Settles O25: both forms emit the groups from one below the size down, which is where the scan stops. -/
theorem scanFormWritesTheSameBytes : Obligations.ScanFormWritesTheSameBytes :=
  fun o w v => scanEncoding_eq_encodingOf o (seven_le_bits w) v

/-- Settles O18: a byte of the encoding has the bits of its group, which R64 takes from the top of the value down. -/
theorem encodeLeftWritesTheGroupsOfTheValue : Obligations.EncodeLeftWritesTheGroupsOfTheValue := by
  intro w s hwf
  have hW := seven_le_bits w
  refine ⟨decode_codes (f := .enc) (o := .left) hwf, fun hsmall => ?_, ?_⟩
  · rw [exec_enc .left w s hwf, State.encoded_small _ hsmall]
    rfl
  · rintro n rfl hcap
    obtain ⟨m, hexec, hheld, hframe⟩ := exec_enc_stores hwf hcap
    refine ⟨m, hexec, fun i hi => ?_, fun i hi j hj => ?_, hframe⟩
    · rw [hheld i (by simpa using hi), continues_encodingOf .left hW _ hi]
    · rw [hheld i (by simpa using hi), encodingOf_getLsbD .left hW _ hi hj, groupOf, groupL_getLsbD hW]
      simp [hj]

/-- Settles O28, by the two ends of the decoder's loop. -/
theorem decodeLeftFoldsBytesToTheTerminator : Obligations.DecodeLeftFoldsBytesToTheTerminator := by
  intro w s hwf
  refine ⟨decode_codes (f := .dec) (o := .left) hwf, fun k hk => ?_, fun hnone => ?_⟩
  · rw [exec_dec .left w s hwf, State.decodeRun_terminates _ _ hk, stepOf_left_eq (seven_le_bits w)]
    rfl
  · rw [exec_dec .left w s hwf, State.decodeRun_runs_out _ _ hnone, stepOf_left_eq (seven_le_bits w)]
    rfl

/-- Settles O30: the accumulator is the fold of the bytes counted, and the closed form follows that fold byte by byte. -/
theorem decodeLeftAccumulatorInClosedForm : Obligations.DecodeLeftAccumulatorInClosedForm := by
  intro w s t c hwf hexec hcount
  rw [exec_dec .left w s hwf] at hexec
  cases hexec
  obtain rfl := Option.some.inj hcount
  rw [← foldl_stepL_eq_closedL (seven_le_bits w), State.decoded_eq_finish, State.finish_results, AccLanes.get_of]
  exact congrArg some (State.decodeRun_acc s _ _)

end Sys2Proof.Proofs

/-! PROOF. The right-grouped family: SIZE.R (O14) and its size as the least length that fits (O15), ENC.R (O19), DEC.R (O29)
and its closed form (O31). -/

namespace Sys2Proof.Machine

/-! ### The right-grouped size -/

/-- A right shift drops all of a value exactly when the value fits in the bits dropped. -/
theorem ushiftRight_eq_zero_iff_toNat_lt {W : Nat} (v : BitVec W) (n : Nat) : v >>> n = 0 ↔ v.toNat < 2 ^ n := by
  have hdiv : (v >>> n).toNat = v.toNat / 2 ^ n := by rw [BitVec.toNat_ushiftRight, Nat.shiftRight_eq_div_pow]
  rw [← BitVec.toNat_inj, hdiv]
  exact Nat.div_eq_zero_iff_lt (by positivity)

/-- A right shift drops all of a value exactly when it drops its highest set bit. -/
theorem ushiftRight_eq_zero_iff_of_highest {W : Nat} {v : BitVec W} {m : Nat} (hm : v.getLsbD m = true)
    (hhigh : ∀ j, m < j → v.getLsbD j = false) (n : Nat) : v >>> n = 0 ↔ m < n := by
  constructor
  · intro h
    by_contra hle
    have hbit : (v >>> n).getLsbD (m - n) = true := by
      rw [BitVec.getLsbD_ushiftRight, Nat.add_sub_cancel' (Nat.le_of_not_lt hle), hm]
    simp [h] at hbit
  · intro h
    apply BitVec.eq_of_getLsbD_eq
    intro i hi
    simp [hhigh (n + i) (by omega)]

/-- The right-grouped size in closed form: the groups from the lowest one up to the one with the highest set bit. -/
theorem sizeR_eq_of_highest {W : Nat} {v : BitVec W} {m : Nat} (hm : v.getLsbD m = true)
    (hhigh : ∀ j, m < j → v.getLsbD j = false) : sizeR W v = m / 7 + 1 := by
  have hle : ∀ n, 1 ≤ n → (sizeR W v ≤ n ↔ m < 7 * n) := fun n hn =>
    (sizeR_le_iff W v hn).trans (ushiftRight_eq_zero_iff_of_highest hm hhigh _)
  have hlower : m < 7 * sizeR W v := (hle _ (sizeR_pos W v)).1 le_rfl
  have hupper : sizeR W v ≤ m / 7 + 1 := (hle _ (Nat.le_add_left 1 _)).2 (by omega)
  omega

theorem sizeR_zero (W : Nat) : sizeR W 0 = 1 := if_pos (by simp)

/-! ### The closed form of the right-grouped decoder -/

/-- The step of R141 as arithmetic: the byte's data fills the seven bits that the shift has cleared. -/
theorem stepR_toNat {W : Nat} (acc : BitVec W) (b : Byte) :
    (stepR W acc b).toNat = (acc.toNat * 2 ^ 7 + (dataBits b).toNat) % 2 ^ W := by
  have hdisjoint : acc <<< 7 &&& (dataBits b).setWidth W = 0 := by
    apply BitVec.eq_of_getLsbD_eq
    intro i hi
    by_cases h : i < 7 <;> simp [h, dataBits_getLsbD]
  rw [stepR, ← BitVec.add_eq_or_of_and_eq_zero _ _ hdisjoint]
  simp [BitVec.toNat_add, Nat.shiftLeft_eq]

/-- One digit more of a number in base 2^7, its digits given from the highest one down: each keeps its distance from the end. -/
theorem sum_digits_succ (digit : Nat → Nat) (c : Nat) :
    ((List.range (c + 1)).map fun i => digit i * 2 ^ (7 * (c + 1 - 1 - i))).sum =
      ((List.range c).map fun i => digit i * 2 ^ (7 * (c - 1 - i))).sum * 2 ^ 7 + digit c := by
  have hterms : (List.range c).map (fun i => digit i * 2 ^ (7 * (c + 1 - 1 - i))) =
      (List.range c).map fun i => digit i * 2 ^ (7 * (c - 1 - i)) * 2 ^ 7 := by
    refine List.map_congr_left fun i hi => ?_
    have hic : i < c := List.mem_range.1 hi
    rw [Nat.mul_assoc, ← pow_add, show 7 * (c - 1 - i) + 7 = 7 * (c + 1 - 1 - i) by omega]
  rw [List.range_succ, List.map_append, List.sum_append, hterms, List.sum_map_mul_right]
  simp

/-- One byte more: the sum of R144 moves up by 7 bits, and the new byte's data is added at the bottom. -/
theorem closedR_succ (W : Nat) (acc : BitVec W) (byteAt : Nat → Byte) (c : Nat) :
    closedR W acc byteAt (c + 1) = (closedR W acc byteAt c * 2 ^ 7 + (dataBits (byteAt c)).toNat) % 2 ^ W := by
  rw [closedR, sum_digits_succ fun i => (dataBits (byteAt i)).toNat, Nat.mul_add_one, pow_add, ← Nat.mul_assoc,
    ← Nat.add_assoc, ← Nat.add_mul]
  exact (((Nat.mod_modEq _ _).mul_right _).add_right _).symm

theorem foldl_stepR_toNat {W : Nat} (acc : BitVec W) (byteAt : Nat → Byte) (c : Nat) :
    (((List.range c).map byteAt).foldl (stepR W) acc).toNat = closedR W acc byteAt c := by
  induction c with
  | zero => simp [closedR, Nat.mod_eq_of_lt acc.isLt]
  | succ c ih =>
    rw [closedR_succ, ← ih, ← stepR_toNat, List.range_succ, List.map_append, List.foldl_append]
    rfl

/-! ### The bytes of an encoding in memory -/

/-- A byte that memory holds of an encoding: the continuation bit is set on all but the last, the data is that of its group. -/
theorem Memory.HoldsAt.read_encodingOf {o : Orient} {W : Nat} (hW : 7 ≤ W) {v : BitVec W} {m : Memory} {base i : Nat}
    (h : m.HoldsAt base (encodingOf o W v)) (hi : i < encodedSize o W v) :
    continues (m.read (base + i)) = decide (i + 1 < encodedSize o W v) ∧
      ∀ j < 7, (m.read (base + i)).getLsbD j = (groupOf o W v (encodedSize o W v - 1 - i)).getLsbD j := by
  rw [h i (by simpa using hi)]
  exact ⟨continues_encodingOf o hW v hi, fun j hj => encodingOf_getLsbD o hW v hi hj⟩

end Sys2Proof.Machine

namespace Sys2Proof.Proofs

open Sys2Proof Sys2Proof.Machine

/-- Settles O15: a size is a number of 7-bit shifts that leaves nothing, and then the value fits in the bits shifted out. -/
theorem sizeRightIsTheLeastLengthThatFits : Obligations.SizeRightIsTheLeastLengthThatFits :=
  fun w v => ⟨sizeR_pos w.bits v, fun _ hn =>
    (sizeR_le_iff w.bits v hn).trans (ushiftRight_eq_zero_iff_toNat_lt v _)⟩

/-- Settles O14, by the closed form of the right-grouped size. -/
theorem sizeRightCountsUpToTheHighestSetBit : Obligations.SizeRightCountsUpToTheHighestSetBit := by
  intro w s hwf
  refine ⟨decode_codes (f := .size) (o := .right) hwf, _, exec_size .right w s hwf, encodedSize_pos .right _ _,
    encodedSize_le_maxBytes .right _ _, fun hzero => ?_, fun m hm hhigh => sizeR_eq_of_highest hm hhigh⟩
  rw [hzero]
  exact sizeR_zero _

/-- Settles O19: a byte of the encoding has the bits of its group, which R63 takes from the bottom of the value up. -/
theorem encodeRightWritesTheGroupsOfTheValue : Obligations.EncodeRightWritesTheGroupsOfTheValue := by
  intro w s hwf
  have hW := seven_le_bits w
  refine ⟨decode_codes (f := .enc) (o := .right) hwf, fun hsmall => ?_, ?_⟩
  · rw [exec_enc .right w s hwf, State.encoded_small _ hsmall]
    rfl
  · rintro n rfl hcap
    obtain ⟨m, hexec, hheld, hframe⟩ := exec_enc_stores hwf hcap
    refine ⟨m, hexec, fun i hi => (hheld.read_encodingOf hW hi).1, fun i hi j hj => ?_, hframe⟩
    rw [(hheld.read_encodingOf hW hi).2 j hj, groupOf, groupR_getLsbD hW, decide_eq_true hj, Bool.true_and]

/-- Settles O29, by the two ends of the decoder's loop; the step of R141 is `stepR` written out. -/
theorem decodeRightFoldsBytesToTheTerminator : Obligations.DecodeRightFoldsBytesToTheTerminator := by
  intro w s hwf
  refine ⟨decode_codes (f := .dec) (o := .right) hwf, fun k hk => ?_, fun hnone => ?_⟩
  · rw [exec_dec .right w s hwf, State.decodeRun_terminates _ _ hk]
    rfl
  · rw [exec_dec .right w s hwf, State.decodeRun_runs_out _ _ hnone]
    rfl

/-- Settles O31: the accumulator is the fold of the bytes counted, and the closed form is that fold as a number. -/
theorem decodeRightAccumulatorInClosedForm : Obligations.DecodeRightAccumulatorInClosedForm := by
  intro w s t c hwf hexec hcount
  rw [exec_dec .right w s hwf] at hexec
  cases hexec
  obtain rfl := Option.some.inj hcount
  rw [← foldl_stepR_toNat, BitVec.ofNat_toNat, BitVec.setWidth_eq, State.decoded_eq_finish,
    State.finish_results, AccLanes.get_of]
  exact congrArg some (State.decodeRun_acc s _ _)

end Sys2Proof.Proofs

/-! PROOF. The properties family: the size of every value (O17, O26), when an ENC fails (O20) and what an encoding looks like
(O22, O23, O38, O39), a decode of it, whole, cut or minimal (O34, O35, O37), and what results depend on (O42). -/

namespace Sys2Proof.Machine

/-! ### The decode of a byte sequence -/

theorem map_range_getD (S : List Byte) {k : Nat} (hk : k ≤ S.length) :
    (List.range k).map (fun i => S.getD i 0) = S.take k := by
  refine List.ext_getElem (by simp [hk]) fun i hi _ => ?_
  have hi : i < S.length := lt_of_lt_of_le (by simpa using hi) hk
  simp [hi]

/-- A sequence with its first terminator at index k is consumed to there (R72). -/
theorem decodeSeq_terminates {W : Nat} (o : Orient) (a : BitVec W) {S : List Byte} {k : Nat}
    (h : TerminatesAt (fun i => S.getD i 0) S.length k) :
    decodeSeq o W a S = ⟨(S.take (k + 1)).foldl (stepOf o W) a, k + 1, true, (List.range (k + 1)).map Access.read⟩ := by
  obtain ⟨hk, hlast, hmore⟩ := h
  rw [decodeSeq, decodeLoop_terminates _ _ _ 0 k a hk (by simpa using hmore) (by simpa using hlast), ← map_range_getD S hk]
  simp only [Nat.zero_add]

/-- A sequence without a terminator is consumed whole. -/
theorem decodeSeq_runs_out {W : Nat} (o : Orient) (a : BitVec W) {S : List Byte}
    (h : Unterminated (fun i => S.getD i 0) S.length) :
    decodeSeq o W a S = ⟨S.foldl (stepOf o W) a, S.length, false, (List.range S.length).map Access.read⟩ := by
  have hbytes := map_range_getD S le_rfl
  rw [List.take_length] at hbytes
  rw [decodeSeq, decodeLoop_runs_out _ _ _ 0 a (by simpa [Unterminated] using h)]
  simp only [Nat.zero_add, hbytes]

/-- The accumulator is the fold of the bytes consumed (R112, R142). -/
theorem decodeSeq_acc {W : Nat} (o : Orient) (a : BitVec W) (S : List Byte) :
    (decodeSeq o W a S).acc = (S.take (decodeSeq o W a S).count).foldl (stepOf o W) a := by
  rcases terminates_or_not (fun i => S.getD i 0) S.length with ⟨k, hk⟩ | hnone
  · rw [decodeSeq_terminates o a hk]
  · rw [decodeSeq_runs_out o a hnone, List.take_length]

/-! ### No sequence shorter than the size decodes to the value -/

/-- A value with its `n` lowest-numbered groups shifted out: the lowest 7n bits in orientation R, the highest 7n in L. -/
def dropGroups (o : Orient) {W : Nat} (v : BitVec W) (n : Nat) : BitVec W :=
  match o with
  | .left => v <<< (7 * n)
  | .right => v >>> (7 * n)

theorem encodedSize_le_iff_dropGroups (o : Orient) {W : Nat} (v : BitVec W) {n : Nat} (hn : 1 ≤ n) :
    encodedSize o W v ≤ n ↔ dropGroups o v n = 0 := by
  cases o with
  | left => exact sizeL_le_iff W v hn
  | right => exact sizeR_le_iff W v hn

/-- One byte adds at most one group to an accumulator. -/
theorem dropGroups_stepOf (o : Orient) {W : Nat} (hW : 7 ≤ W) {acc : BitVec W} (b : Byte) {n : Nat}
    (h : dropGroups o acc n = 0) : dropGroups o (stepOf o W acc b) (n + 1) = 0 := by
  have hgone : ∀ i, (dropGroups o acc n).getLsbD i = false := by simp [h]
  apply BitVec.eq_of_getLsbD_eq
  intro i hi
  cases o with
  | left =>
    simp only [dropGroups, BitVec.getLsbD_shiftLeft] at hgone
    simp only [dropGroups, stepOf, stepL_eq hW, BitVec.getLsbD_shiftLeft, BitVec.getLsbD_or, BitVec.getLsbD_ushiftRight]
    by_cases hlow : i < 7 * (n + 1)
    · simp [hlow]
    · have hacc : acc.getLsbD (7 + (i - 7 * (n + 1))) = false := by
        simpa [hi, show 7 * n ≤ i by omega, show i - 7 * n = 7 + (i - 7 * (n + 1)) by omega] using hgone i
      simp [hacc, show i - 7 * (n + 1) < W - 7 by omega]
  | right =>
    simp only [dropGroups, BitVec.getLsbD_ushiftRight] at hgone
    simp only [dropGroups, stepOf, stepR, BitVec.getLsbD_ushiftRight, BitVec.getLsbD_or, BitVec.getLsbD_shiftLeft,
      BitVec.getLsbD_setWidth, dataBits_getLsbD]
    have hacc := hgone i
    rw [show 7 * n + i = 7 * (n + 1) + i - 7 by omega] at hacc
    simp [hacc, show ¬ 7 * (n + 1) + i < 7 by omega]

theorem dropGroups_foldl (o : Orient) {W : Nat} (hW : 7 ≤ W) {acc : BitVec W} (S : List Byte) {n : Nat}
    (h : dropGroups o acc n = 0) : dropGroups o (S.foldl (stepOf o W) acc) (n + S.length) = 0 := by
  induction S generalizing acc n with
  | nil => exact h
  | cons b S ih =>
    rw [List.foldl_cons, List.length_cons, Nat.add_comm S.length, ← Nat.add_assoc]
    exact ih (dropGroups_stepOf o hW b h)

/-- The value folded from a sequence has a size of at most the sequence's length. -/
theorem encodedSize_foldl_le (o : Orient) {W : Nat} (hW : 7 ≤ W) {S : List Byte} (hS : S ≠ []) :
    encodedSize o W (S.foldl (stepOf o W) 0) ≤ S.length := by
  have hzero : dropGroups o (0 : BitVec W) 0 = 0 := by cases o <;> simp [dropGroups]
  have hfold := dropGroups_foldl o hW S hzero
  rw [Nat.zero_add] at hfold
  exact (encodedSize_le_iff_dropGroups o _ (List.length_pos_iff.2 hS)).2 hfold

/-! ### An encoding cut in two, and encodings side by side -/

/-- No byte of an encoding in front of its last one is a terminator. -/
theorem decodeSeq_take_encodingOf (o : Orient) {W : Nat} (hW : 7 ≤ W) (v : BitVec W) {k : Nat} (hk : k < encodedSize o W v) :
    decodeSeq o W 0 ((encodingOf o W v).take k) =
      ⟨((encodingOf o W v).take k).foldl (stepOf o W) 0, k, false, (List.range k).map Access.read⟩ := by
  have hlen : ((encodingOf o W v).take k).length = k := by simp [hk.le]
  have hbit : ∀ j < k, continues (((encodingOf o W v).take k).getD j 0) = true := by
    intro j hj
    have hmore : decide (j + 1 < encodedSize o W v) = true := decide_eq_true (by omega)
    rw [← hmore, ← continues_encodingOf o hW v (by omega)]
    simp [List.getD_eq_getElem?_getD, hj]
  rw [decodeSeq_runs_out o 0 fun j hj => hbit j (hlen ▸ hj), hlen]

/-- The rest of an encoding ends in its terminator. -/
theorem decodeSeq_drop_encodingOf (o : Orient) {W : Nat} (hW : 7 ≤ W) (v a : BitVec W) {k : Nat}
    (hk : k < encodedSize o W v) :
    decodeSeq o W a ((encodingOf o W v).drop k) =
      ⟨((encodingOf o W v).drop k).foldl (stepOf o W) a, encodedSize o W v - k, true,
        (List.range (encodedSize o W v - k)).map Access.read⟩ := by
  have hlen : ((encodingOf o W v).drop k).length = encodedSize o W v - k := by simp
  have hbit : ∀ j, k + j < encodedSize o W v →
      continues (((encodingOf o W v).drop k).getD j 0) = decide (k + j + 1 < encodedSize o W v) := by
    intro j hj
    rw [← continues_encodingOf o hW v hj]
    simp [List.getD_eq_getElem?_getD]
  have hend : TerminatesAt (fun i => ((encodingOf o W v).drop k).getD i 0) ((encodingOf o W v).drop k).length
      (encodedSize o W v - k - 1) := by
    refine ⟨by omega, ?_, fun j hj => ?_⟩
    · rw [hbit _ (by omega)]
      exact decide_eq_false (by omega)
    · rw [hbit j (by omega)]
      exact decide_eq_true (by omega)
  rw [decodeSeq_terminates o a hend, Nat.sub_add_cancel (by omega), ← hlen, List.take_length]

/-- The decoders undo the encoders, so different values have different encodings. -/
theorem encodingOf_injective (o : Orient) {W : Nat} (hW : 7 ≤ W) : Function.Injective (encodingOf o W) := by
  intro v v' h
  rw [← foldl_encodingOf o hW v, h, foldl_encodingOf o hW v']

/-- An encoding is no longer than one it begins with: it would have a set continuation bit where that one ends. -/
theorem encodedSize_le_of_isPrefix (o : Orient) {W : Nat} (hW : 7 ≤ W) {v v' : BitVec W}
    (h : encodingOf o W v <+: encodingOf o W v') : encodedSize o W v' ≤ encodedSize o W v := by
  by_contra hlt
  have hpos := encodedSize_pos o W v
  have hbyte : (encodingOf o W v).getD (encodedSize o W v - 1) 0 = (encodingOf o W v').getD (encodedSize o W v - 1) 0 := by
    obtain ⟨rest, hrest⟩ := h
    rw [← hrest, List.getD_append _ _ _ _ (by rw [encodingOf_length]; omega)]
  have hbit := congrArg continues hbyte
  rw [continues_encodingOf o hW v (by omega), continues_encodingOf o hW v' (by omega), decide_eq_decide] at hbit
  omega

/-! ### Value zero -/

theorem encodedSize_zero (o : Orient) (W : Nat) : encodedSize o W 0 = 1 := by
  cases o with
  | left => exact sizeL_zero W
  | right => exact sizeR_zero W

theorem groupOf_zero (o : Orient) (W k : Nat) : groupOf o W 0#W k = 0#8 := by
  cases o <;> simp [groupOf, groupL, groupR]

theorem encodingOf_zero (o : Orient) (W : Nat) : encodingOf o W 0 = [0x00] := by
  rw [encodingOf_eq_emitGroups, encodedSize_zero]
  simp [emitGroups, packByte, groupOf_zero]

theorem decodeSeq_zero_byte (o : Orient) {W : Nat} (hW : 7 ≤ W) :
    decodeSeq o W 0 [0x00] = ⟨0, 1, true, [Access.read 0]⟩ := by
  have hdecode := decodeSeq_encodingOf o hW 0
  rw [encodingOf_zero, encodedSize_zero] at hdecode
  exact hdecode

/-- The continuation bit does not enter the accumulator (R111, R141). -/
theorem stepOf_zero_continuation (o : Orient) {W : Nat} (hW : 7 ≤ W) : stepOf o W 0 0x80 = 0 := by
  have hdata : dataBits 0x80#8 = 0 := by decide
  cases o with
  | left => simp [stepOf, stepL_eq hW, hdata]
  | right => simp [stepOf, stepR, hdata]

/-- Zero with one group more than its encoding has, which is decoded like any other sequence (R74). -/
theorem decodeSeq_overlong_zero (o : Orient) {W : Nat} (hW : 7 ≤ W) :
    decodeSeq o W 0 [0x80, 0x00] = ⟨0, 2, true, [Access.read 0, Access.read 1]⟩ := by
  have hend : TerminatesAt (fun i => [(0x80 : Byte), 0x00].getD i 0) 2 1 := by
    unfold TerminatesAt
    decide
  rw [decodeSeq_terminates o 0 hend]
  have hfold : [(0x80 : Byte), 0x00].foldl (stepOf o W) 0 = 0 := by
    rw [List.foldl_cons, stepOf_zero_continuation o hW]
    exact stepOf_zero o W
  exact congrArg (fun acc => DecodeRun.mk acc 2 true [Access.read 0, Access.read 1]) hfold

/-! ### What results and stored bytes depend on -/

theorem TerminatesAt.congr {byteAt byteAt' : Nat → Byte} {len k : Nat} (h : TerminatesAt byteAt len k)
    (hbytes : ∀ j < k + 1, byteAt' j = byteAt j) : TerminatesAt byteAt' len k := by
  obtain ⟨hk, hlast, hmore⟩ := h
  refine ⟨hk, by rwa [hbytes k k.lt_succ_self], fun j hj => ?_⟩
  rw [hbytes j (by omega), hmore j hj]

/-- A decode depends on the bytes it consumes only. -/
theorem State.decodeRun_congr {W : Nat} {s s' : State} (fold : BitVec W → Byte → BitVec W) (acc : BitVec W)
    (hlen : s'.ports.len = s.ports.len)
    (hbytes : ∀ j < (s.decodeRun fold acc).count, s'.bufferByte j = s.bufferByte j) :
    s'.decodeRun fold acc = s.decodeRun fold acc := by
  rcases terminates_or_not s.bufferByte s.ports.len with ⟨k, hk⟩ | hnone
  · rw [State.decodeRun_terminates fold acc hk] at hbytes ⊢
    have hmap : (List.range (k + 1)).map s'.bufferByte = (List.range (k + 1)).map s.bufferByte :=
      List.map_congr_left fun j hj => hbytes j (List.mem_range.1 hj)
    rw [State.decodeRun_terminates fold acc (hlen ▸ hk.congr hbytes), hmap]
  · rw [State.decodeRun_runs_out fold acc hnone] at hbytes
    rw [State.decodeRun, State.decodeRun, hlen]
    exact decodeLoop_congr fold _ 0 acc fun j hj => hbytes j (Nat.zero_add s.ports.len ▸ hj)

/-- `exec_congr` for a DEC, with the bytes it consumes in place of all those below `len`. -/
theorem exec_dec_congr {i : Instr} {s s' t t' : State} (hf : i.func = .dec) (hcfg : s'.cfg = s.cfg)
    (hports : s'.ports = s.ports)
    (hbytes : ∀ n, t.results.count = some n → ∀ j < n, s'.bufferByte j = s.bufferByte j)
    (h : exec i s = .next t) (h' : exec i s' = .next t') : t'.results = t.results ∧ t'.accesses = t.accesses := by
  cases hwf : i.wf s.cfg with
  | false =>
    rw [exec_absent i s hwf] at h
    rw [exec_absent i s' (hcfg ▸ hwf)] at h'
    cases h; cases h'
    simp [hports]
  | true =>
    obtain ⟨f, o, w, rfl⟩ := instr_exists_fields i
    obtain rfl : f = .dec := by simpa using hf
    rw [exec_dec o w s hwf] at h
    rw [exec_dec o w s' (hcfg ▸ hwf)] at h'
    cases h; cases h'
    rw [hports, State.decodeRun_congr _ _ (congrArg Request.len hports) (hbytes _ rfl)]
    exact ⟨rfl, rfl⟩

/-- The count of an ENC is the number of bytes it stores. -/
theorem exec_enc_count {i : Instr} {s t : State} (hf : i.func = .enc) (h : exec i s = .next t) :
    t.results.count = some (s.ports.storedBy s.cfg i).length := by
  obtain ⟨hwf, rfl⟩ | ⟨-, hsize, -⟩ | ⟨hwf, -, rfl⟩ | ⟨-, hdec, -⟩ := exec_cases h
  · simp [Request.storedBy, hwf]
  · simp [hf] at hsize
  · rcases Nat.lt_or_ge s.ports.cap (encodedSize i.orient i.width.bits (s.ports.value.get i.width)) with hsmall | hfits
    · rw [State.encoded_small _ hsmall, Request.storedBy, if_neg fun ⟨_, _, hfits⟩ => Nat.not_le.2 hsmall hfits]
      rfl
    · rw [State.encoded_fits _ hfits, Request.storedBy, if_pos ⟨hwf, hf, hfits⟩, encodingOf_length]
      rfl
  · simp [hf] at hdec

/-- The `count` bytes that stand in the buffer after an ENC are those that the build and the operands name. -/
theorem exec_enc_bufferByte {i : Instr} {s t : State} {n j : Nat} (hf : i.func = .enc) (h : exec i s = .next t)
    (hcount : t.results.count = some n) (hj : j < n) : t.bufferByte j = (s.ports.storedBy s.cfg i).getD j 0 := by
  obtain rfl : (s.ports.storedBy s.cfg i).length = n := Option.some.inj ((exec_enc_count hf h).symm.trans hcount)
  obtain ⟨-, -, hports⟩ := exec_kept h
  rw [State.bufferByte, hports, exec_mem h]
  exact storeBytes_holdsAt s.ports.base s.mem _ j hj

end Sys2Proof.Machine

namespace Sys2Proof.Proofs

open Sys2Proof Sys2Proof.Machine

/-- Settles O35: the ENC leaves the encoding at its buffer's start, and a DEC of a buffer that begins with an encoding stops
at the encoding's last byte. -/
theorem decodeOfEncodedValueIsTheValue : Obligations.DecodeOfEncodedValueIsTheValue := by
  intro o w s len hwf hcap hlen
  obtain ⟨t, henc, hres, hheld⟩ := exec_enc_fits hwf hcap
  obtain ⟨hcfg, -, hports⟩ := exec_kept henc
  obtain ⟨u, hdec, -, hures, hreads⟩ := exec_dec_of_holdsAt
    (s := t.present { t.ports with accIn := zeroLanes, len := len }) (wf_dec_of_wf_enc (hcfg ▸ hwf)) rfl
    (hports ▸ hheld) hlen
  exact ⟨t, u, henc, congrArg Results.count hres, hdec, hures, hreads⟩

/-- Settles O37: a sequence consumed whole is folded byte by byte, and each byte adds at most one group to the value. -/
theorem encodeAgreesWithSizeAndIsMinimal : Obligations.EncodeAgreesWithSizeAndIsMinimal := by
  intro o w
  refine ⟨fun s hwf hcap => ?_, fun v S hacc hwhole hterm => ?_⟩
  · obtain ⟨t, henc, hres, -⟩ := exec_enc_fits hwf hcap
    exact ⟨t, henc, congrArg Results.count hres⟩
  · have hS : S ≠ [] := by
      rintro rfl
      cases hterm
    rw [decodeSeq_acc, hwhole, List.take_length] at hacc
    exact hacc ▸ encodedSize_foldl_le o (seven_le_bits w) hS

/-- Settles O17, by the bounds of a size; NMAX of each width is a number. -/
theorem sizeIsBetweenOneAndNMAX : Obligations.SizeIsBetweenOneAndNMAX := by
  intro o w v
  refine ⟨encodedSize_pos o _ v, ?_, ?_, ?_⟩ <;> rintro rfl <;> exact encodedSize_le_maxBytes o _ v

/-- Settles O20, by the two cases of an ENC: the capacity is below the size, or the encoding fits. -/
theorem encodeFailsExactlyBelowTheSize : Obligations.EncodeFailsExactlyBelowTheSize := by
  intro o w s t hwf hexec
  have hpos := encodedSize_pos o w.bits (s.ports.value.get w)
  have hmax := encodedSize_le_maxBytes o w.bits (s.ports.value.get w)
  rcases Nat.lt_or_ge s.ports.cap (encodedSize o w.bits (s.ports.value.get w)) with hsmall | hfits
  · rw [exec_enc o w s hwf, State.encoded_small _ hsmall] at hexec
    cases hexec
    have hnoroom : ¬ maxBytes w.bits ≤ s.ports.cap := by omega
    simp [hsmall, hnoroom]
  · obtain ⟨t', henc, hres, -⟩ := exec_enc_fits hwf hfits
    obtain rfl : t' = t := Host.Outcome.next.inj (henc.symm.trans hexec)
    have hcap : s.ports.cap ≠ 0 := by omega
    simp [hres, hfits, hcap, Nat.ne_of_gt hpos]

/-- Settles O22, by the byte that an encoder packs at each index. -/
theorem encodingMarksItsLastByte : Obligations.EncodingMarksItsLastByte := by
  intro o w v
  rw [encodingOf_length]
  exact ⟨rfl, fun i hi => continues_encodingOf o (seven_le_bits w) v hi⟩

/-- Settles O23: the first byte carries the group numbered one below the size, which is the highest non-zero one. -/
theorem encodingBeginsWithANonzeroGroup : Obligations.EncodingBeginsWithANonzeroGroup := by
  intro o w v n hn htwo
  rw [encodingOf_length] at hn
  have hW := seven_le_bits w
  rw [dataBits_encodingOf_first o hW, ← hn]
  exact ⟨groupOf_size_pred_ne_zero o hW v (by omega) (by omega), rfl,
    fun j hj => groupOf_eq_zero_of_size_le o v (hn ▸ hj)⟩

/-- Settles O34: the first piece has no terminator and the second ends in one, and the two folds are the fold of the whole. -/
theorem splitEncodingDecodesToTheValue : Obligations.SplitEncodingDecodesToTheValue := by
  intro o w v k hk
  have hW := seven_le_bits w
  rw [encodingOf_length] at hk ⊢
  rw [decodeSeq_take_encodingOf o hW v hk]
  refine ⟨rfl, rfl, ?_⟩
  rintro a rfl
  rw [decodeSeq_drop_encodingOf o hW v _ hk]
  refine ⟨?_, rfl, rfl⟩
  rw [← List.foldl_append, List.take_append_drop, foldl_encodingOf o hW v]

/-- Settles O38: the bytes 00 and the bytes 80 00 both decode to zero. -/
theorem differentValuesHaveDifferentEncodings : Obligations.DifferentValuesHaveDifferentEncodings := by
  intro o w
  have hW := seven_le_bits w
  refine ⟨fun v v' h => encodingOf_injective o hW h, [0x00], [0x80, 0x00], by decide, ?_⟩
  rw [decodeSeq_zero_byte o hW, decodeSeq_overlong_zero o hW]
  exact ⟨rfl, rfl, rfl, rfl, rfl⟩

/-- Settles O39: an encoding that another one begins with already ends in a terminator, so it is the whole of the other. -/
theorem noEncodingIsAProperPrefixOfAnother : Obligations.NoEncodingIsAProperPrefixOfAnother := by
  intro o w v v' h
  refine h.eq_of_length_le ?_
  rw [encodingOf_length, encodingOf_length]
  exact encodedSize_le_of_isPrefix o (seven_le_bits w) h

/-- Settles O42: only a DEC reads memory, and it is determined by the bytes it consumes; what an ENC stores is named by the
build and the operands. -/
theorem resultsDependOnlyOnOperandsAndBytesRead : Obligations.ResultsDependOnlyOnOperandsAndBytesRead := by
  intro i s s' t hcfg hports h hbytes
  obtain ⟨t', h'⟩ := exec_total i s'
  have hsame : t'.results = t.results ∧ t'.accesses = t.accesses := by
    by_cases hdec : i.func = .dec
    · exact exec_dec_congr hdec hcfg hports (hbytes hdec) h h'
    · exact exec_congr hcfg hports (fun hf => absurd hf hdec) h h'
  obtain ⟨hres, hacc⟩ := hsame
  refine ⟨t', h', hres, hacc, fun henc n hcount j hj => ?_⟩
  rw [exec_enc_bufferByte henc h' (hres ▸ hcount) hj, exec_enc_bufferByte henc h hcount hj, hcfg, hports]

/-- Settles O26: the encoding of zero has one group, which is zero. -/
theorem zeroIsOneZeroByte : Obligations.ZeroIsOneZeroByte := by
  intro o w
  rw [decodeSeq_zero_byte o (seven_le_bits w)]
  exact ⟨encodedSize_zero o _, encodingOf_zero o _, rfl, rfl, rfl⟩

end Sys2Proof.Proofs

/-! PROOF. The exceptions family: no step faults or refuses (O9), a failed ENC repeated with room enough (O21), the status as a
function of the other results (O43), and the idle step (O8). -/

namespace Sys2Proof.Machine

/-! ### The code of a status (R185) -/

theorem statusOfCount_code_of_pos {n : Nat} (h : 1 ≤ n) : (statusOfCount n).code = 0#2 := by
  rw [statusOfCount, if_neg (Nat.ne_of_gt h)]
  rfl

theorem statusOfCount_code_zero : (statusOfCount 0).code = 1#2 := rfl

theorem statusOfTerm_code_true : (statusOfTerm true).code = 0#2 := rfl

theorem statusOfTerm_code_false : (statusOfTerm false).code = 2#2 := rfl

/-! ### Results that every request drives (R180) -/

/-- An ENC, failed or not, drives a count and the status that R185 gives to it, and nothing else. -/
theorem State.encoded_results {s t : State} {n : Nat} {bytes : List Byte} (h : t = s.encoded n bytes) :
    ∃ m, t.results = ⟨some m, AccLanes.absent, none, some (statusOfCount m)⟩ := by
  subst h
  rcases Nat.lt_or_ge s.ports.cap n with hsmall | hfits
  · rw [State.encoded_small bytes hsmall]
    exact ⟨0, rfl⟩
  · rw [State.encoded_fits bytes hfits]
    exact ⟨n, rfl⟩

theorem exec_drives_count_and_status {i : Instr} {s t : State} (h : exec i s = .next t) :
    ∃ n st, t.results.count = some n ∧ t.results.status = some st := by
  obtain ⟨-, rfl⟩ | ⟨-, -, rfl⟩ | ⟨-, -, ht⟩ | ⟨-, -, rfl⟩ := exec_cases h
  · exact ⟨_, _, rfl, rfl⟩
  · exact ⟨_, _, rfl, rfl⟩
  · obtain ⟨m, hres⟩ := State.encoded_results ht
    exact ⟨m, _, congrArg Results.count hres, congrArg Results.status hres⟩
  · exact ⟨_, _, rfl, rfl⟩

theorem State.perform_drives_count_and_status {s t : State} (h : s.perform = .next t) :
    ∃ n st, t.results.count = some n ∧ t.results.status = some st := by
  obtain ⟨i, -, hexec⟩ | ⟨-, rfl⟩ := State.perform_cases h
  · exact exec_drives_count_and_status hexec
  · exact ⟨_, _, rfl, rfl⟩

/-- A step always goes on: idle, or with the head request performed. -/
theorem State.safe (s : State) : s.Safe := by
  cases hissued : s.issued with
  | nil => exact ⟨s, step_idle hissued⟩
  | cons r rest =>
    obtain ⟨t, hstep, -⟩ := step_performs hissued
    exact ⟨t, hstep⟩

/-! ### An ENC without room enough (R46, R182) -/

theorem exec_enc_small {o : Orient} {w : Width} {s : State} (hwf : (Instr.ofFields .enc o w).wf s.cfg = true)
    (hcap : s.ports.cap < encodedSize o w.bits (s.ports.value.get w)) :
    exec (Instr.ofFields .enc o w) s =
      .next (s.finish ⟨some 0, AccLanes.absent, none, some .insufficientCapacity⟩ []) := by
  rw [exec_enc o w s hwf, State.encoded_small _ hcap]

end Sys2Proof.Machine

namespace Sys2Proof.Proofs

open Sys2Proof Sys2Proof.Machine

/-- Settles O9: a step is idle or performs the head request, and every request drives `count` and `status`. -/
theorem everyStepAnswersANextState : Obligations.EveryStepAnswersANextState := by
  intro s
  refine ⟨s.safe, fun r rest hissued => ?_⟩
  obtain ⟨t, hstep, hperform, -⟩ := step_performs hissued
  obtain ⟨n, st, hcount, hstatus⟩ := State.perform_drives_count_and_status hperform
  exact ⟨t, n, st, hstep, hcount, hstatus⟩

/-- Settles O21: the failed ENC leaves the value and the build, so the repeated one needs the same size. -/
theorem failedEncodeSucceedsWithALargerBuffer : Obligations.FailedEncodeSucceedsWithALargerBuffer := by
  intro o w s cap' hwf hsmall hfits
  obtain ⟨u, hretry, hres, -⟩ := exec_enc_fits
    (s := (s.finish ⟨some 0, AccLanes.absent, none, some .insufficientCapacity⟩ []).present { s.ports with cap := cap' })
    hwf hfits
  exact ⟨_, u, exec_enc_small hwf hsmall, rfl, rfl, fun _ => rfl, hretry, congrArg Results.status hres,
    congrArg Results.count hres⟩

/-- Settles O43, by the cases of `exec_cases`, and by the step of a reserved code (O6). -/
theorem statusFollowsTheOtherResults : Obligations.StatusFollowsTheOtherResults := by
  refine ⟨fun i s hwf => ?_, fun s r rest e hissued hdec =>
    ⟨_, .illegalOp, stepOfReservedCodeIsIllegalOp s r rest e hissued hdec, rfl, rfl⟩⟩
  obtain ⟨t, hexec⟩ := exec_total i s
  obtain ⟨habsent, -⟩ | ⟨-, hf, rfl⟩ | ⟨-, hf, ht⟩ | ⟨-, hf, rfl⟩ := exec_cases hexec
  · simp [hwf] at habsent
  · refine ⟨_, .ok, hexec, rfl, fun _ => rfl, ?_, ?_⟩ <;> simp [hf]
  · obtain ⟨m, hres⟩ := State.encoded_results ht
    refine ⟨_, statusOfCount m, hexec, congrArg Results.status hres, by simp [hf], fun _ => ?_, by simp [hf]⟩
    refine ⟨m, congrArg Results.count hres, statusOfCount_code_of_pos, ?_⟩
    rintro rfl
    exact statusOfCount_code_zero
  · refine ⟨_, _, hexec, rfl, by simp [hf], by simp [hf], fun _ => ⟨_, rfl, fun hterm => ?_, fun hterm => ?_⟩⟩
    · rw [hterm, statusOfTerm_code_true]
    · rw [hterm, statusOfTerm_code_false]

/-- Settles O8, the law of the idle step. -/
theorem stepIsIdleWhenNothingIsIssued : Obligations.StepIsIdleWhenNothingIsIssued := fun _ => step_idle

end Sys2Proof.Proofs
